-- ==== Sys2Proof/Machine/SineTable.lean ====
section
/-! DEFINITION. The Sine table of `(K, H)` (spec/40_lut_bank.md R71, R76, R80): its defining property over the real sine, the
integer computation of the one table that has it, and the proof that it does, which every `Config` carries.
The computation is exact (D12, U4): an entry is found by comparing the cosine of a dyadic angle with a fraction, and doubling
the angle turns each comparison into one between squares, down to the angles 0 and π. -/

namespace Sys2Proof.Machine

/-! ## The property -/

/-- The real value `H·(1 + sin(2π·i/R))` that entry `i` rounds (R71). -/
noncomputable def idealSine (k h i : Nat) : ℝ :=
  (h : ℝ) * (1 + Real.sin (2 * Real.pi * (i : ℝ) / ((2 ^ k : Nat) : ℝ)))

/-- R80: the list holds `R` integers, and `|Sine[i] - H·(1 + sin(2π·i/R))| < 1/2` for every `i`. -/
def SineTableExact (k h : Nat) (sine : List Nat) : Prop :=
  sine.length = 2 ^ k ∧ ∀ i, i < 2 ^ k → |((sine.getD i 0 : Nat) : ℝ) - idealSine k h i| < 1 / 2

/-! ## The computation -/

/-- The sign of a number. -/
inductive Sign where
  | below
  | equal
  | above
deriving DecidableEq, Repr

/-- The sign of the negated number. -/
def negSign : Sign → Sign
  | .below => .above
  | .equal => .equal
  | .above => .below

/-- The sign of an integer. -/
def signOf (x : Int) : Sign := if x < 0 then .below else if x = 0 then .equal else .above

/-- The sign of `q·cos(π·a/2^n) - p`, for `q > 0` and `a ≤ 2^n`: `cos 0 = 1`, `cos π = -1`, and in between
`cos(2x) = 2·cos²(x) - 1`, where `cos` is not negative up to the right angle and negative beyond it. -/
def cosSign : Nat → Nat → Int → Int → Sign
  | 0, a, p, q => signOf ((if a = 0 then q else -q) - p)
  | n + 1, a, p, q =>
    if a ≤ 2 ^ n then
      if p < 0 then .above else cosSign n a (2 * p ^ 2 - q ^ 2) (q ^ 2)
    else if 0 ≤ p then .below
    else negSign (cosSign n (2 ^ (n + 1) - a) (2 * p ^ 2 - q ^ 2) (q ^ 2))

/-- The number `a` for which `sin(2π·i/2^k) = cos(π·a/2^(k+1))`, brought into `0..2^(k+1)`. -/
def phase (k i : Nat) : Nat :=
  if 4 * i ≤ 2 ^ k then 2 ^ k - 4 * i
  else if 4 * i ≤ 3 * 2 ^ k then 4 * i - 2 ^ k
  else 5 * 2 ^ k - 4 * i

/-- Whether `H·(1 + sin(2π·i/R))` exceeds `m - 1/2`: whether entry `i` is at least `m`, for `m ≥ 1` (R71). -/
def sineReaches (k h i m : Nat) : Bool := decide (cosSign (k + 1) (phase k i) (2 * m - 1 - 2 * h) (2 * h) = .above)

/-- The greatest `m` below `lo + 2^bits` that `reaches`, found bit by bit from the top; `lo` where none above it does. -/
def greatest (reaches : Nat → Bool) : Nat → Nat → Nat
  | 0, lo => lo
  | bits + 1, lo => if reaches (lo + 2 ^ bits) then greatest reaches bits (lo + 2 ^ bits) else greatest reaches bits lo

/-- `round(H·(1 + sin(2π·i/R)))` (R71); it is at most `2H`, which is below `2^(log2 H + 2)`. -/
def roundedSine (k h i : Nat) : Nat := greatest (sineReaches k h i) (Nat.log2 h + 2) 0

/-- The Sine table of `(R, H)`, by entry (R71). -/
def sineTable (k h : Nat) : List Nat := (List.range (2 ^ k)).map (roundedSine k h)

/-! ## It has the property -/

/-- What a sign says of a real number. -/
def SignHolds (s : Sign) (x : ℝ) : Prop :=
  match s with
  | .below => x < 0
  | .equal => x = 0
  | .above => 0 < x

theorem signHolds_negSign {s : Sign} {x : ℝ} (h : SignHolds s x) : SignHolds (negSign s) (-x) := by
  cases s <;> simp_all [SignHolds, negSign]

theorem signHolds_signOf (x : Int) : SignHolds (signOf x) (x : ℝ) := by
  unfold signOf
  split
  · exact Int.cast_lt_zero.mpr ‹x < 0›
  · split
    · exact Int.cast_eq_zero.mpr ‹x = 0›
    · exact Int.cast_pos.mpr (by omega)

/-- A difference has the sign of the difference of squares it is a factor of. -/
theorem signHolds_of_factor {s : Sign} {x y : ℝ} (hy : 0 ≤ y) (hxy : y = 0 → x = 0) (h : SignHolds s (2 * (x * y))) :
    SignHolds s x := by
  rcases hy.eq_or_lt with h0 | h0
  · have hx := hxy h0.symm
    rw [hx, zero_mul, mul_zero] at h
    rwa [hx]
  · cases s with
    | below => exact neg_of_mul_neg_left (by simp only [SignHolds] at h; linarith) h0.le
    | equal => simpa [SignHolds, h0.ne'] using h
    | above => exact pos_of_mul_pos_left (by simp only [SignHolds] at h; linarith) h0.le

/-- `cosSign` answers the sign it is named for. -/
theorem cosSign_holds (n : Nat) : ∀ (a : Nat) (p q : Int), a ≤ 2 ^ n → 0 < q →
    SignHolds (cosSign n a p q) ((q : ℝ) * Real.cos (Real.pi * (a : ℝ) / ((2 ^ n : Nat) : ℝ)) - (p : ℝ)) := by
  induction n with
  | zero =>
    intro a p q ha hq
    have hcos : (q : ℝ) * Real.cos (Real.pi * (a : ℝ) / ((2 ^ 0 : Nat) : ℝ)) - (p : ℝ) =
        (((if a = 0 then q else -q) - p : Int) : ℝ) := by
      rcases Nat.eq_zero_or_pos a with rfl | h
      · simp
      · obtain rfl : a = 1 := by simp at ha; omega
        simp
    rw [hcos]
    exact signHolds_signOf _
  | succ n ih =>
    intro a p q ha hq
    have hqr : (0 : ℝ) < q := by exact_mod_cast hq
    have hN : (0 : ℝ) < ((2 ^ n : Nat) : ℝ) := by positivity
    have hNN : ((2 ^ (n + 1) : Nat) : ℝ) = 2 * ((2 ^ n : Nat) : ℝ) := by push_cast; ring
    have hpi := Real.pi_pos
    have ha0 : (0 : ℝ) ≤ a := Nat.cast_nonneg a
    set x := Real.pi * (a : ℝ) / ((2 ^ (n + 1) : Nat) : ℝ) with hx
    have hxmul : x * (2 * ((2 ^ n : Nat) : ℝ)) = Real.pi * a := by rw [hx, hNN]; field_simp
    have hdouble : Real.pi * (a : ℝ) / ((2 ^ n : Nat) : ℝ) = 2 * x := by rw [hx, hNN]; field_simp
    have hsquare (c : ℝ) : ((q ^ 2 : Int) : ℝ) * (2 * c ^ 2 - 1) - ((2 * p ^ 2 - q ^ 2 : Int) : ℝ) =
        2 * ((q * c - p) * (q * c + p)) := by push_cast; ring
    unfold cosSign
    split
    · rename_i hle
      have hler : (a : ℝ) ≤ ((2 ^ n : Nat) : ℝ) := by exact_mod_cast hle
      have hc : 0 ≤ Real.cos x := by
        apply Real.cos_nonneg_of_neg_pi_div_two_le_of_le
        · nlinarith
        · nlinarith
      split
      · rename_i hp
        have : (p : ℝ) < 0 := by exact_mod_cast hp
        change (0 : ℝ) < _
        nlinarith
      · rename_i hp
        have hpr : (0 : ℝ) ≤ p := by exact_mod_cast not_lt.mp hp
        have h := ih a (2 * p ^ 2 - q ^ 2) (q ^ 2) hle (by positivity)
        rw [hdouble, Real.cos_two_mul, hsquare] at h
        refine signHolds_of_factor (by positivity) (fun h0 => ?_) h
        nlinarith [mul_nonneg hqr.le hc]
    · rename_i hle
      have hler : ((2 ^ n : Nat) : ℝ) < (a : ℝ) := by exact_mod_cast not_le.mp hle
      have har : (a : ℝ) ≤ 2 * ((2 ^ n : Nat) : ℝ) := by rw [← hNN]; exact_mod_cast ha
      have hc : Real.cos x < 0 := by
        apply Real.cos_neg_of_pi_div_two_lt_of_lt
        · nlinarith
        · nlinarith
      split
      · rename_i hp
        have : (0 : ℝ) ≤ p := by exact_mod_cast hp
        change _ < (0 : ℝ)
        nlinarith
      · rename_i hp
        have hpr : (p : ℝ) < 0 := by exact_mod_cast not_le.mp hp
        have hb : 2 ^ (n + 1) - a ≤ 2 ^ n := by rw [pow_succ] at ha ⊢; omega
        have hbx : Real.pi * ((2 ^ (n + 1) - a : Nat) : ℝ) / ((2 ^ n : Nat) : ℝ) = 2 * Real.pi - 2 * x := by
          rw [Nat.cast_sub ha, hNN, ← hdouble]; field_simp
        have h := ih (2 ^ (n + 1) - a) (2 * p ^ 2 - q ^ 2) (q ^ 2) hb (by positivity)
        rw [hbx, Real.cos_two_pi_sub, Real.cos_two_mul, hsquare] at h
        have h' : SignHolds (cosSign n (2 ^ (n + 1) - a) (2 * p ^ 2 - q ^ 2) (q ^ 2)) (-(q * Real.cos x - p)) := by
          refine signHolds_of_factor (y := -(q * Real.cos x + p)) (by nlinarith) (fun h0 => ?_) (by rwa [neg_mul_neg])
          nlinarith
        simpa using signHolds_negSign h'

/-- The phase is in range and its cosine is the sine. -/
theorem phase_spec {k i : Nat} (hi : i < 2 ^ k) :
    phase k i ≤ 2 ^ (k + 1) ∧
      Real.cos (Real.pi * (phase k i : ℝ) / ((2 ^ (k + 1) : Nat) : ℝ)) =
        Real.sin (2 * Real.pi * (i : ℝ) / ((2 ^ k : Nat) : ℝ)) := by
  have hN : (0 : ℝ) < ((2 ^ k : Nat) : ℝ) := by positivity
  have hNN : ((2 ^ (k + 1) : Nat) : ℝ) = 2 * ((2 ^ k : Nat) : ℝ) := by push_cast; ring
  rw [hNN, ← Real.cos_pi_div_two_sub, pow_succ]
  unfold phase
  split
  · refine ⟨by omega, congrArg Real.cos ?_⟩
    rw [Nat.cast_sub ‹_›]
    push_cast
    field_simp
    ring
  · split
    · refine ⟨by omega, ?_⟩
      rw [← Real.cos_neg (Real.pi / 2 - _), Nat.cast_sub (by omega)]
      refine congrArg Real.cos ?_
      push_cast
      field_simp
      ring
    · refine ⟨by omega, ?_⟩
      rw [← Real.cos_add_two_pi (Real.pi / 2 - _), Nat.cast_sub (by omega)]
      refine congrArg Real.cos ?_
      push_cast
      field_simp
      ring

/-- What `sineReaches` decides. -/
theorem sineReaches_iff {k h i : Nat} (hh : 1 ≤ h) (hi : i < 2 ^ k) (m : Nat) :
    sineReaches k h i m = true ↔ (m : ℝ) - 1 / 2 < idealSine k h i := by
  obtain ⟨hle, hcos⟩ := phase_spec hi
  have hs := cosSign_holds (k + 1) (phase k i) (2 * m - 1 - 2 * h) (2 * h) hle (by omega)
  rw [hcos] at hs
  push_cast at hs
  rw [sineReaches, decide_eq_true_eq, idealSine]
  push_cast
  generalize cosSign (k + 1) (phase k i) (2 * m - 1 - 2 * h) (2 * h) = s at hs
  cases s <;> simp only [SignHolds] at hs <;> simp <;> linarith

/-- What the search answers: a number that reaches (or the start), the next one not reaching. -/
theorem greatest_spec {reaches : Nat → Bool} (bits : Nat) : ∀ lo : Nat,
    lo = 0 ∨ reaches lo = true → reaches (lo + 2 ^ bits) = false →
      (greatest reaches bits lo = 0 ∨ reaches (greatest reaches bits lo) = true) ∧
        reaches (greatest reaches bits lo + 1) = false := by
  induction bits with
  | zero => exact fun lo h1 h2 => ⟨h1, h2⟩
  | succ bits ih =>
    intro lo h1 h2
    unfold greatest
    split
    · exact ih _ (.inr ‹_›) (by rwa [add_assoc, ← two_mul, ← pow_succ'])
    · exact ih _ h1 (eq_false_of_ne_true ‹_›)

/-- R76: at a power of two the sine is no half (Niven's theorem leaves 0, 1, -1 and the halves as rational values). -/
theorem sin_dyadic_ne_half (k i : Nat) {e : ℝ} (he : e = 1 / 2 ∨ e = -(1 / 2)) :
    Real.sin (2 * Real.pi * (i : ℝ) / ((2 ^ k : Nat) : ℝ)) ≠ e := by
  intro h
  have h2 : Real.cos (2 * (2 * Real.pi * (i : ℝ) / ((2 ^ k : Nat) : ℝ))) = Real.cos (Real.pi / 3) := by
    rw [Real.cos_two_mul, Real.cos_sq', h, Real.cos_pi_div_three]
    rcases he with rfl | rfl <;> norm_num
  obtain ⟨n, hn⟩ := Real.cos_eq_cos_iff.mp h2
  have hp : ((2 ^ k : Nat) : ℝ) ≠ 0 := by positivity
  have hpi := Real.pi_ne_zero
  obtain ⟨z, hz, h3⟩ : ∃ z : ℤ, (2 ^ k : ℤ) * z = 12 * i ∧ ¬3 ∣ z := by
    rcases hn with hn | hn
    · refine ⟨1 - 6 * n, ?_, by omega⟩
      field_simp at hn
      push_cast at hn
      have : (2 : ℝ) ^ k * (1 - 6 * n) = 12 * i := by linarith
      exact_mod_cast this
    · refine ⟨6 * n - 1, ?_, by omega⟩
      field_simp at hn
      push_cast at hn
      have : (2 : ℝ) ^ k * (6 * n - 1) = 12 * i := by linarith
      exact_mod_cast this
  have hdvd : (3 : ℤ) ∣ 2 ^ k * z := ⟨4 * i, by rw [hz]; ring⟩
  rcases Int.prime_three.dvd_or_dvd hdvd with hd | hd
  · have := Int.prime_three.dvd_of_dvd_pow hd
    omega
  · exact h3 hd

/-- R76: no entry is a rounding tie. -/
theorem idealSine_ne_tie {k h : Nat} (hh : 1 ≤ h) (i : Nat) (m : ℤ) : idealSine k h i ≠ m + 1 / 2 := by
  intro hm
  have hpos : (0 : ℝ) < h := by exact_mod_cast hh
  rw [idealSine] at hm
  have hq : ∃ q : ℚ, Real.sin (2 * Real.pi * (i : ℝ) / ((2 ^ k : Nat) : ℝ)) = q := by
    refine ⟨(m + 1 / 2) / h - 1, ?_⟩
    push_cast
    rw [eq_sub_iff_add_eq, eq_div_iff hpos.ne', ← hm, add_comm, mul_comm]
    push_cast
    ring
  have hr : ∃ r : ℚ, 2 * Real.pi * (i : ℝ) / ((2 ^ k : Nat) : ℝ) = r * Real.pi :=
    ⟨2 * i / (2 ^ k : Nat), by push_cast; ring⟩
  have hniven := niven_sin hr hq
  simp only [Set.mem_insert_iff, Set.mem_singleton_iff] at hniven
  have hparity (n : ℤ) (hn : (2 * m + 1 : ℝ) = 2 * n) : False := by
    have : (2 * m + 1 : ℤ) = 2 * n := by exact_mod_cast hn
    omega
  rcases hniven with h1 | h1 | h1 | h1 | h1
  · exact hparity 0 (by rw [h1] at hm; push_cast; linarith)
  · exact sin_dyadic_ne_half k i (.inr (by norm_num)) h1
  · exact hparity h (by rw [h1] at hm; push_cast; linarith)
  · exact sin_dyadic_ne_half k i (.inl (by norm_num)) h1
  · exact hparity (2 * h) (by rw [h1] at hm; push_cast; linarith)

/-- R75: the value to be rounded lies in `0..2H`. -/
theorem idealSine_mem (k h i : Nat) : 0 ≤ idealSine k h i ∧ idealSine k h i ≤ 2 * h := by
  have h1 := Real.neg_one_le_sin (2 * Real.pi * (i : ℝ) / ((2 ^ k : Nat) : ℝ))
  have h2 := Real.sin_le_one (2 * Real.pi * (i : ℝ) / ((2 ^ k : Nat) : ℝ))
  have h3 : (0 : ℝ) ≤ h := Nat.cast_nonneg h
  unfold idealSine
  constructor <;> nlinarith

/-- The computed entry is within 1/2 of the real value. -/
theorem roundedSine_spec {k h i : Nat} (hh : 1 ≤ h) (hi : i < 2 ^ k) :
    |((roundedSine k h i : Nat) : ℝ) - idealSine k h i| < 1 / 2 := by
  obtain ⟨h0, h2⟩ := idealSine_mem k h i
  have hbound : 2 * h < 2 ^ (Nat.log2 h + 2) := by
    have := Nat.lt_log2_self (n := h)
    rw [pow_succ] at this ⊢
    rw [pow_succ]
    omega
  have htop : sineReaches k h i (0 + 2 ^ (Nat.log2 h + 2)) = false := by
    rw [← Bool.not_eq_true, sineReaches_iff hh hi, not_lt, zero_add]
    have : ((2 * h + 1 : Nat) : ℝ) ≤ ((2 ^ (Nat.log2 h + 2) : Nat) : ℝ) := by exact_mod_cast hbound
    push_cast at this ⊢
    linarith
  obtain ⟨hlo, hhi⟩ := greatest_spec _ 0 (.inl rfl) htop
  change (roundedSine k h i = 0 ∨ sineReaches k h i (roundedSine k h i) = true) at hlo
  change sineReaches k h i (roundedSine k h i + 1) = false at hhi
  rw [← Bool.not_eq_true, sineReaches_iff hh hi, not_lt] at hhi
  push_cast at hhi
  have htie := idealSine_ne_tie (k := k) hh i (roundedSine k h i : ℕ)
  push_cast at htie
  have hup : idealSine k h i < (roundedSine k h i : ℝ) + 1 / 2 := lt_of_le_of_ne (by linarith) htie
  rw [abs_lt]
  refine ⟨by linarith, ?_⟩
  rcases hlo with hz | hr
  · rw [hz] at hup ⊢
    push_cast
    linarith
  · rw [sineReaches_iff hh hi] at hr
    linarith

/-- R80: the computed table has the property, whatever `(K, H)`. -/
theorem sineTable_exact {k h : Nat} (hh : 1 ≤ h) : SineTableExact k h (sineTable k h) := by
  refine ⟨by simp [sineTable], fun i hi => ?_⟩
  have : (sineTable k h).getD i 0 = roundedSine k h i := by simp [sineTable, List.getD_eq_getElem?_getD, hi]
  rw [this]
  exact roundedSine_spec hh hi

/-- R76, R80: exactly one integer lies within 1/2, so a table with the property is the computed one. -/
theorem eq_sineTable_of_exact {k h : Nat} {sine : List Nat} (hh : 1 ≤ h) (he : SineTableExact k h sine) :
    sine = sineTable k h := by
  obtain ⟨hl, hv⟩ := he
  obtain ⟨hl', hv'⟩ := sineTable_exact (k := k) hh
  refine List.ext_getElem (hl.trans hl'.symm) fun i h1 h2 => ?_
  have a := hv i (hl ▸ h1)
  have b := hv' i (hl ▸ h1)
  rw [List.getD_eq_getElem _ _ h1, abs_lt] at a
  rw [List.getD_eq_getElem _ _ h2, abs_lt] at b
  have c1 : (sine[i] : ℝ) < (sineTable k h)[i] + 1 := by linarith
  have c2 : ((sineTable k h)[i] : ℝ) < sine[i] + 1 := by linarith
  have d1 : sine[i] < (sineTable k h)[i] + 1 := by exact_mod_cast c1
  have d2 : (sineTable k h)[i] < sine[i] + 1 := by exact_mod_cast c2
  omega

end Sys2Proof.Machine
end

