-- ==== Sys2Proof/Word.lean ====
section
/-! DEFINITION. The word types of WAVEGEN's boundary (spec/30_encoding.md R50 to R52, spec/10_state.md R13 to R17). -/

namespace Sys2Proof

/-- A step input word `IW[21:0]` (R50, R52); bit 0 is the least significant. -/
abbrev StepWord := BitVec 22

/-- A waveform code: register WAVE and field `wave` (R13, R52). -/
abbrev WaveCode := BitVec 2

/-- A samples-per-step value: register NDIV and field `ndiv` (R14, R52). -/
abbrev NdivWord := BitVec 8

/-- An amplitude in hundredths: register AMP and field `amp` (R15, R52). -/
abbrev AmpWord := BitVec 7

/-- The tick counter TCNT (R17). -/
abbrev TcntWord := BitVec 8

end Sys2Proof
end

