-- ==== Sys2Proof/Syntax.lean ====
section
/-! DEFINITION. The eleven operations a step input word spells (spec/30_encoding.md R55), the input ports (R51) and the names
of the waveforms (spec/10_state.md R13). -/

namespace Sys2Proof

/-- The eleven operations, in the order of spec/opcode_table.json. Operands are the fields of the word as they stand in it,
before any clamp (R54); ignored bits are no operands (R57). -/
inductive Instr where
  /-- RESET (R175) -/
  | reset
  /-- NOP (R129) -/
  | nop
  /-- TICK (R90) -/
  | tick
  /-- WR_WAVE w (R130) -/
  | wrWave (w : WaveCode)
  /-- WR_NDIV n (R131) -/
  | wrNdiv (n : NdivWord)
  /-- WR_AMP a (R132) -/
  | wrAmp (a : AmpWord)
  /-- WR_ALL w, n, a (R133) -/
  | wrAll (w : WaveCode) (n : NdivWord) (a : AmpWord)
  /-- T_WR_WAVE w (R134) -/
  | tWrWave (w : WaveCode)
  /-- T_WR_NDIV n (R135) -/
  | tWrNdiv (n : NdivWord)
  /-- T_WR_AMP a (R136) -/
  | tWrAmp (a : AmpWord)
  /-- T_WR_ALL w, n, a (R137) -/
  | tWrAll (w : WaveCode) (n : NdivWord) (a : AmpWord)
deriving DecidableEq, Repr

/-- The input ports, sampled once per step (R51). -/
structure Ports where
  rst : Bool
  tick : Bool
  we : Bool
  sel : BitVec 2
  wave : WaveCode
  ndiv : NdivWord
  amp : AmpWord
deriving DecidableEq, Repr

/-- What the `sel` field targets (R34, R53). -/
inductive Target where
  | wave
  | ndiv
  | amp
  | all
deriving DecidableEq, Repr

/-- The four waveforms, in DOC0's cyclic order (R13). -/
inductive Waveform where
  | sine
  | square
  | sawtooth
  | triangle
deriving DecidableEq, Repr

/-- One row of the operation table of R55: a word `IW` spells the row iff `IW & mask == pattern`; the bits of `ignored` have
no effect (R57). -/
structure Row where
  mnemonic : String
  mask : StepWord
  pattern : StepWord
  ignored : StepWord
deriving DecidableEq, Repr

end Sys2Proof
end

