-- ==== Sys2Proof/WellFormed.lean ====
section
/-! DEFINITION. Which operations and which parameters are well formed.
Every operation is: R54 and R57 make every value of every operand field legal, and the constructors of Instr hold nothing but
those fields. The parameters of an instance are checked as BUILD checks them (spec/40_lut_bank.md R70, spec/60_exceptions.md R150). -/

namespace Sys2Proof

/-- R57: there is no illegal word and no illegal operand value, so every operation is well formed. -/
def Instr.wellFormed : Instr → Bool
  | .reset => true
  | .nop => true
  | .tick => true
  | .wrWave _ => true
  | .wrNdiv _ => true
  | .wrAmp _ => true
  | .wrAll _ _ _ => true
  | .tWrWave _ => true
  | .tWrNdiv _ => true
  | .tWrAmp _ => true
  | .tWrAll _ _ _ => true

/-- `R` is a power of two and at least 2 (R2, R150). -/
def resolutionWellFormed (r : Nat) : Bool := decide (2 ≤ r) && decide (2 ^ Nat.log2 r = r)

/-- `H` is a positive integer (R3, R150). -/
def halfWellFormed (h : Nat) : Bool := decide (1 ≤ h)

/-- R80's condition on a supplied Sine table: by R76 exactly one list meets it, the one `sineTable` computes. -/
def sineTableWellFormed (r h : Nat) (sine : List Nat) : Bool := decide (sine = Machine.sineTable (Nat.log2 r) h)

end Sys2Proof
end

