-- ==== Sys2Proof/Decode.lean ====
section
/-! DEFINITION. The step input word and its decode, then the encoder (spec/30_encoding.md R50 to R58). Decoding is total: every
one of the `2^22` words spells an operation (R55), so nothing is rejected. -/

namespace Sys2Proof

/-- The fields of a step input word (R52). -/
def portsOf (iw : StepWord) : Ports where
  rst := iw.getLsbD 21
  tick := iw.getLsbD 20
  we := iw.getLsbD 19
  sel := iw.extractLsb' 17 2
  wave := iw.extractLsb' 15 2
  ndiv := iw.extractLsb' 7 8
  amp := iw.extractLsb' 0 7

/-- `IW = {rst, tick, we, sel[1:0], wave[1:0], ndiv[7:0], amp[6:0]}` (R52). -/
def wordOf (q : Ports) : StepWord :=
  BitVec.ofBool q.rst ++ BitVec.ofBool q.tick ++ BitVec.ofBool q.we ++ q.sel ++ q.wave ++ q.ndiv ++ q.amp

/-- The `sel` codes (R34, R53). -/
def targetOf (sel : BitVec 2) : Target :=
  if sel = 0 then .wave else if sel = 1 then .ndiv else if sel = 2 then .amp else .all

/-- The code of a target: the inverse of `targetOf`. -/
def selOf : Target → BitVec 2
  | .wave => 0
  | .ndiv => 1
  | .amp => 2
  | .all => 3

/-- The operation the ports spell, decided by `rst`, `tick`, `we` and `sel` alone, in R55's order. -/
def operation (q : Ports) : Instr :=
  if q.rst then .reset
  else match q.tick, q.we with
    | false, false => .nop
    | true, false => .tick
    | false, true =>
      match targetOf q.sel with
      | .wave => .wrWave q.wave
      | .ndiv => .wrNdiv q.ndiv
      | .amp => .wrAmp q.amp
      | .all => .wrAll q.wave q.ndiv q.amp
    | true, true =>
      match targetOf q.sel with
      | .wave => .tWrWave q.wave
      | .ndiv => .tWrNdiv q.ndiv
      | .amp => .tWrAmp q.amp
      | .all => .tWrAll q.wave q.ndiv q.amp

/-- The operation a step input word spells (R55); total. -/
def decode (iw : StepWord) : Instr := operation (portsOf iw)

/-- The ports of a write: `tick` set or not, `we` set, the given target and data (R52, R53). -/
def writePorts (tick : Bool) (t : Target) (w : WaveCode) (n : NdivWord) (a : AmpWord) : Ports where
  rst := false
  tick := tick
  we := true
  sel := selOf t
  wave := w
  ndiv := n
  amp := a

/-- The ports of the canonical spelling of an operation: every ignored bit 0 (R56). -/
def canonicalPorts : Instr → Ports
  | .reset => { rst := true, tick := false, we := false, sel := 0, wave := 0, ndiv := 0, amp := 0 }
  | .nop => { rst := false, tick := false, we := false, sel := 0, wave := 0, ndiv := 0, amp := 0 }
  | .tick => { rst := false, tick := true, we := false, sel := 0, wave := 0, ndiv := 0, amp := 0 }
  | .wrWave w => writePorts false .wave w 0 0
  | .wrNdiv n => writePorts false .ndiv 0 n 0
  | .wrAmp a => writePorts false .amp 0 0 a
  | .wrAll w n a => writePorts false .all w n a
  | .tWrWave w => writePorts true .wave w 0 0
  | .tWrNdiv n => writePorts true .ndiv 0 n 0
  | .tWrAmp a => writePorts true .amp 0 0 a
  | .tWrAll w n a => writePorts true .all w n a

/-- The canonical word of an operation (R56). -/
def encode (i : Instr) : StepWord := wordOf (canonicalPorts i)

/-- The row of R55's table an operation stands in. -/
def rowOf : Instr → Row
  | .reset => { mnemonic := "RESET", mask := 0x200000, pattern := 0x200000, ignored := 0x1FFFFF }
  | .nop => { mnemonic := "NOP", mask := 0x380000, pattern := 0x000000, ignored := 0x07FFFF }
  | .tick => { mnemonic := "TICK", mask := 0x380000, pattern := 0x100000, ignored := 0x07FFFF }
  | .wrWave _ => { mnemonic := "WR_WAVE", mask := 0x3E0000, pattern := 0x080000, ignored := 0x007FFF }
  | .wrNdiv _ => { mnemonic := "WR_NDIV", mask := 0x3E0000, pattern := 0x0A0000, ignored := 0x01807F }
  | .wrAmp _ => { mnemonic := "WR_AMP", mask := 0x3E0000, pattern := 0x0C0000, ignored := 0x01FF80 }
  | .wrAll _ _ _ => { mnemonic := "WR_ALL", mask := 0x3E0000, pattern := 0x0E0000, ignored := 0x000000 }
  | .tWrWave _ => { mnemonic := "T_WR_WAVE", mask := 0x3E0000, pattern := 0x180000, ignored := 0x007FFF }
  | .tWrNdiv _ => { mnemonic := "T_WR_NDIV", mask := 0x3E0000, pattern := 0x1A0000, ignored := 0x01807F }
  | .tWrAmp _ => { mnemonic := "T_WR_AMP", mask := 0x3E0000, pattern := 0x1C0000, ignored := 0x01FF80 }
  | .tWrAll _ _ _ => { mnemonic := "T_WR_ALL", mask := 0x3E0000, pattern := 0x1E0000, ignored := 0x000000 }

/-- The table of R55, row by row in its order. -/
def opcodeTable : List Row :=
  [rowOf .reset, rowOf .nop, rowOf .tick,
   rowOf (.wrWave 0), rowOf (.wrNdiv 0), rowOf (.wrAmp 0), rowOf (.wrAll 0 0 0),
   rowOf (.tWrWave 0), rowOf (.tWrNdiv 0), rowOf (.tWrAmp 0), rowOf (.tWrAll 0 0 0)]

/-- R55: a word `IW` spells a row iff `IW & mask == match`. -/
def spells (iw : StepWord) (row : Row) : Bool := iw &&& row.mask == row.pattern

/-- The operation the decoder reads from an instruction whose bits are `w` (the host's numbering: bit 0 the least significant).
Every instruction is one 22-bit word (R50), so the number of bits the table gives the row does not matter; a number that is
no 22-bit word is refused (log entry 12). -/
def decodeTableWord (_nbits w : Nat) : Option Instr :=
  if w < 2 ^ 22 then some (decode (BitVec.ofNat 22 w)) else none

end Sys2Proof
end

