-- ==== Sys2Proof/Machine/Operands.lean ====
section
/-! DEFINITION. Operand assembly (spec/30_encoding.md R54): the clamps of the configuration port (spec/43_config_port.md R127, R128)
and the waveform codes (spec/10_state.md R13). -/

namespace Sys2Proof.Machine

/-- `clamp(v, lo, hi) = min(max(v, lo), hi)` (spec/00_scope.md section 5). -/
def clamp (v lo hi : Nat) : Nat := min (max v lo) hi

/-- `ClampN(n) = clamp(n, 1, 200)` (R127). -/
def clampN (n : NdivWord) : NdivWord := BitVec.ofNat 8 (clamp n.toNat 1 200)

/-- `ClampA(a) = clamp(a, 1, 100)` (R128). -/
def clampA (a : AmpWord) : AmpWord := BitVec.ofNat 7 (clamp a.toNat 1 100)

/-- The table a waveform code selects (R13); all four codes are legal. -/
def waveformOf (w : WaveCode) : Waveform :=
  if w = 0 then .sine else if w = 1 then .square else if w = 2 then .sawtooth else .triangle

/-- The code of a waveform (R13). -/
def codeOf : Waveform → WaveCode
  | .sine => 0
  | .square => 1
  | .sawtooth => 2
  | .triangle => 3

end Sys2Proof.Machine
end

