-- ==== Sys2Proof/Config.lean ====
section
/-! DEFINITION. The parameters of one WAVEGEN (spec/00_scope.md R2 to R5, spec/40_lut_bank.md R80) and the free value the
reference instance is made of. What is computed from the parameters (the tables, Scale, Clip) stands in Machine/. -/

namespace Sys2Proof

/-- The parameters `(R, H, P)` and the Sine table of one instance (R2 to R4, R80).
The proof fields are R150's 'the configuration type carries the proof that `R = 2^K`, `K >= 1`, `H >= 1`' and R80's property
of the Sine table, so no instance has another table than the one R71 defines. -/
structure Config where
  /-- `K`, the index width; `R = 2^K` (R2, R5) -/
  k : Nat
  /-- `H`, half of full scale (R3) -/
  h : Nat
  /-- `P`, the sink's period in duty ticks (R4 fixes `2·H`; D7 lets an instance carry another) -/
  p : Nat
  /-- the Sine table, entry `i` at position `i` (R80) -/
  sine : List Nat
  k_pos : 1 ≤ k
  h_pos : 1 ≤ h
  p_pos : 1 ≤ p
  sine_exact : Machine.SineTableExact k h sine
deriving DecidableEq, Repr

/-- `R`, samples per waveform cycle (R2). -/
def Config.r (c : Config) : Nat := 2 ^ c.k

/-- `W`, the width of a sample, a table entry and a duty value: the least width that holds `2H` (R5). -/
def Config.w (c : Config) : Nat := Nat.clog 2 (2 * c.h + 1)

/-- The largest legal value of DUTY, `min(2H, P)` (R18, R19). -/
def Config.dutyMax (c : Config) : Nat := min (2 * c.h) c.p

/-- FREE VALUE. `H - 1` of the reference instance: `H` is a positive integer the spec leaves open (R3, D6; log entry 2). -/
opaque Config.freeHalf : Nat

/-- The instance of a legal `(K, H)`: `P = 2·H` (R4) and the Sine table R71 defines. -/
def Config.ofParameters (k h : Nat) (hk : 1 ≤ k) (hh : 1 ≤ h) : Config where
  k := k
  h := h
  p := 2 * h
  sine := Machine.sineTable k h
  k_pos := hk
  h_pos := hh
  p_pos := Nat.mul_pos (by decide) hh
  sine_exact := Machine.sineTable_exact hh

/-- The reference instance: `R = 128` (R2), `H` free, `P = 2·H` (R4), the Sine table of that `H` (R71). -/
def Config.reference : Config := Config.ofParameters 7 (Config.freeHalf + 1) (by decide) (Nat.succ_pos _)

end Sys2Proof
end

