-- ==== Sys2Proof/Machine/State.lean ====
section
/-! DEFINITION. The state of WAVEGEN (spec/10_state.md R10 to R20), the faults and refusals, and the machine right after RESET. -/

namespace Sys2Proof.Machine

/-- The errors. NO STEP RAISES ONE (R153); both belong to construction. -/
inductive Fault where
  /-- ConfigurationError (R150), with the offending value of `R` or `H`. Raised by `build` (and `buildFrom`) only, before any step.
  Safe: the instance is never built. -/
  | configurationError (info : Nat)
  /-- The model's own (log entry 11): `buildFrom` was given a Sine table without R80's property. Raised by `buildFrom`
  only. Safe: the instance is never built. -/
  | sineTableRefused
deriving DecidableEq, Repr

/-- Why there is no step. -/
inductive Refusal where
  /-- An operation without a meaning in the model; raised by exec only, and by no arm. Safe. -/
  | notModelled (mnemonic : String)
  /-- The environment presents no step input word, so no step happens (R6; log entry 5). Raised by step only. Safe. -/
  | awaitingInput
deriving DecidableEq, Repr

/-- The state. The six registers are R10's; `cfg` is the instance's parameters (R23; log entry 1), and the last three fields
are the model's own (log entries 4, 6 and 7). -/
structure State where
  /-- the parameters `R`, `H`, `P` and the Sine table; no operation changes them (R23, R33) -/
  cfg : Config
  /-- WAVE, the waveform selector (R13) -/
  wave : WaveCode
  /-- NDIV, samples-per-step, legal `1..200` (R14) -/
  ndiv : NdivWord
  /-- AMP, the amplitude in hundredths, legal `1..100` (R15) -/
  amp : AmpWord
  /-- TIDX, the table index, legal `0..R-1`, `K` bits (R16) -/
  tidx : Nat
  /-- TCNT, the tick counter, legal `0..199` (R17) -/
  tcnt : TcntWord
  /-- DUTY, the last value given to the sink, legal `0..min(2H, P)`, `W` bits; drives the output port `duty` (R18, R61) -/
  duty : Nat
  /-- the output port `duty_stb` as the step just taken drove it (R61); no operation reads it -/
  dutyStb : Bool
  /-- the sink trace, oldest first (R114, R116); no operation reads it -/
  sink : List Nat
  /-- the step input words the environment presents, next first (R6, R52) -/
  inputs : List StepWord
deriving DecidableEq, Repr

/-- The instance `c` right after its first RESET (R20, R175, R177): nothing written to the sink, no word presented yet. -/
def State.resetFor (c : Config) : State where
  cfg := c
  wave := 0
  ndiv := 1
  amp := 100
  tidx := 0
  tcnt := 0
  duty := 0
  dutyStb := false
  sink := []
  inputs := []

/-- The reference instance right after RESET (R2, R20; log entry 2). -/
def State.reset : State := State.resetFor Config.reference

end Sys2Proof.Machine
end

