-- ==== Sys2Proof/Machine/Bank.lean ====
section
/-! DEFINITION. waveform_lut_bank: the four tables, the LUT space and its construction (spec/40_lut_bank.md R70 to R80,
spec/20_memory.md R30 to R33). -/

namespace Sys2Proof.Machine

/-- `Sine[i]`, the configuration's table (R71, R80). -/
def sineEntry (c : Config) (i : Nat) : Nat := c.sine.getD i 0

/-- `Square[i] = 2H if Sine[i] > H else 0`, with the rounded table entry (R72). -/
def squareEntry (c : Config) (i : Nat) : Nat := if sineEntry c i > c.h then 2 * c.h else 0

/-- `Sawtooth[i] = (2·H·i) div R` (R73). -/
def sawtoothEntry (c : Config) (i : Nat) : Nat := 2 * c.h * i / c.r

/-- `Triangle[i] = (4·H·min(i, R-i)) div R` (R74). -/
def triangleEntry (c : Config) (i : Nat) : Nat := 4 * c.h * min i (c.r - i) / c.r

/-- Entry `i` of a table (R71 to R74). -/
def tableEntry (c : Config) (v : Waveform) (i : Nat) : Nat :=
  match v with
  | .sine => sineEntry c i
  | .square => squareEntry c i
  | .sawtooth => sawtoothEntry c i
  | .triangle => triangleEntry c i

/-- `LutRead(w, i)`: entry `i` of the table `w` selects (R32). -/
def lutRead (c : Config) (w : WaveCode) (i : Nat) : Nat := tableEntry c (waveformOf w) i

/-- The LUT address `{w, i} = w·R + i` (R31). -/
def lutAddr (c : Config) (w : WaveCode) (i : Nat) : Nat := w.toNat * c.r + i

/-- The LUT space by address: `4·R` words, none beyond them (R31). The unit of addressing is a table entry. -/
def lutWord (c : Config) (addr : Nat) : Option Nat :=
  if addr < 4 * c.r then some (lutRead c (BitVec.ofNat 2 (addr / c.r)) (addr % c.r)) else none

/-- R80's property of the Sine table: `|Sine[i] - H·(1 + sin(2π·i/R))| < 1/2` for every `i`, with the real sine (R71).
Every instance has it (`Config.sine_exact`). -/
def SineExact (c : Config) : Prop := ∀ i, i < c.r → |(sineEntry c i : ℝ) - idealSine c.k c.h i| < 1 / 2

/-- `BUILD(R, H)` with `P = 2·H` (R70, R150, R4): ConfigurationError for an `R` that is no power of two or is below 2, then
for an `H` below 1; else the instance with the tables of R71 to R74, a function of `(R, H)` alone (R78). -/
def build (r h : Nat) : Except Fault Config :=
  if hr : resolutionWellFormed r = true then
    if hh : halfWellFormed h = true then
      .ok (Config.ofParameters (Nat.log2 r) h
        (by
          simp only [resolutionWellFormed, Bool.and_eq_true, decide_eq_true_eq] at hr
          rcases Nat.eq_zero_or_pos (Nat.log2 r) with h0 | h1
          · rw [h0] at hr; omega
          · exact h1)
        (by simpa [halfWellFormed] using hh))
    else .error (.configurationError h)
  else .error (.configurationError r)

/-- `BUILD` where the Sine table is supplied as a configuration field (R80): the same two checks, and a table without R80's
property is refused under the model's own name (log entry 11). -/
def buildFrom (r h : Nat) (sine : List Nat) : Except Fault Config :=
  match build r h with
  | .ok c => if sineTableWellFormed r h sine then .ok c else .error .sineTableRefused
  | .error f => .error f

/-- A legal instance with the sink's period set to another positive `P` (D7, R112). -/
def withPeriod (c : Config) (p : Nat) (hp : 1 ≤ p) : Config := { c with p := p, p_pos := hp }

end Sys2Proof.Machine
end

