-- ==== Sys2Proof/Machine/Duty.lean ====
section
/-! DEFINITION. pwm_duty_output: scaling and the range clamp (spec/42_pwm_duty_output.md R110 to R112). The sink write is in Ops. -/

namespace Sys2Proof.Machine

/-- `Scale(s, a) = round(s·a/100) = (s·a + 50) div 100`, computed without wrap (R110). -/
def scale (s a : Nat) : Nat := (s * a + 50) / 100

/-- `Clip(v) = min(v, P)` (R112). -/
def clip (c : Config) (v : Nat) : Nat := min v c.p

end Sys2Proof.Machine
end

