-- ==== Sys2Proof/Machine/Flags.lean ====
section
/-! DEFINITION. WAVEGEN has no flags (spec/10_state.md R21). Its one conditional is TICK's `c < NDIV` (spec/41_sample_stepper.md R90, R100),
and its one-bit result is the output `duty_stb` (spec/30_encoding.md R61). -/

namespace Sys2Proof.Machine

/-- `c = TCNT + 1`, without wrap (R90, R95). -/
def nextCount (s : State) : Nat := s.tcnt.toNat + 1

/-- Whether a TICK rolls over: not `c < NDIV`, an unsigned comparison (R90, R95). -/
def rollsOver (s : State) : Bool := !decide (nextCount s < s.ndiv.toNat)

/-- Whether an operation contains a TICK (R90, R134 to R137). -/
def ticks : Instr → Bool
  | .tick => true
  | .tWrWave _ => true
  | .tWrNdiv _ => true
  | .tWrAmp _ => true
  | .tWrAll _ _ _ => true
  | .reset => false
  | .nop => false
  | .wrWave _ => false
  | .wrNdiv _ => false
  | .wrAmp _ => false
  | .wrAll _ _ _ => false

/-- Whether an operation contains a configuration write (R130 to R137). -/
def writes : Instr → Bool
  | .wrWave _ => true
  | .wrNdiv _ => true
  | .wrAmp _ => true
  | .wrAll _ _ _ => true
  | .tWrWave _ => true
  | .tWrNdiv _ => true
  | .tWrAmp _ => true
  | .tWrAll _ _ _ => true
  | .reset => false
  | .nop => false
  | .tick => false

/-- Whether an operation writes NDIV, RESET included (the 'written by' column of R10's table). -/
def setsNdiv : Instr → Bool
  | .reset => true
  | .wrNdiv _ => true
  | .wrAll _ _ _ => true
  | .tWrNdiv _ => true
  | .tWrAll _ _ _ => true
  | .nop => false
  | .tick => false
  | .wrWave _ => false
  | .wrAmp _ => false
  | .tWrWave _ => false
  | .tWrAmp _ => false

end Sys2Proof.Machine
end

