-- ==== Sys2Proof/Machine/Ops.lean ====
section
/-! DEFINITION. The named operations over the registers, the sink and the input words, which every meaning is made of.
There is no operation that takes an exception and none that returns from one: no step raises anything (spec/60_exceptions.md
R153), and there is no trap entry (R157) and no trap return (R158). -/

namespace Sys2Proof.Machine

/-- The next step input word and the state without it; none where the environment presents none (R6, R52). -/
def fetch (s : State) : Option (StepWord × State) :=
  match s.inputs with
  | [] => none
  | iw :: rest => some (iw, { s with inputs := rest })

/-- The state with a word placed as the next to be consumed, in the place of the one that was next. -/
def placeNext (s : State) (iw : StepWord) : State := { s with inputs := iw :: s.inputs.tail }

/-- A step without a sink write: `duty_stb = 0` (R61). -/
def lowerStrobe (s : State) : State := { s with dutyStb := false }

/-- `WAVE <- w` (R130). -/
def writeWave (w : WaveCode) (s : State) : State := { s with wave := w }

/-- `NDIV <- ClampN(n)` (R131). -/
def writeNdiv (n : NdivWord) (s : State) : State := { s with ndiv := clampN n }

/-- `AMP <- ClampA(a)` (R132). -/
def writeAmp (a : AmpWord) (s : State) : State := { s with amp := clampA a }

/-- The three writes of WR_ALL, together (R133). -/
def writeAll (w : WaveCode) (n : NdivWord) (a : AmpWord) (s : State) : State :=
  writeAmp a (writeNdiv n (writeWave w s))

/-- `SinkWrite(d)`: append `d` to the sink trace and pulse `duty_stb` (R114). -/
def sinkWrite (d : Nat) (s : State) : State := { s with dutyStb := true, sink := s.sink ++ [d] }

/-- The index a rollover reads, `(TIDX + 1) mod R` (R90, R92). -/
def nextIndex (s : State) : Nat := (s.tidx + 1) % s.cfg.r

/-- The value a rollover emits, `Clip(Scale(LutRead(WAVE, i), AMP))` at the new index (R90, R113). -/
def nextDuty (s : State) : Nat := clip s.cfg (scale (lutRead s.cfg s.wave (nextIndex s)) s.amp.toNat)

/-- TICK's hold branch: only TCNT changes (R90, R91). -/
def hold (s : State) : State := lowerStrobe { s with tcnt := BitVec.ofNat 8 (nextCount s) }

/-- TICK's rollover branch (R90, R92, R113, R114). -/
def rollover (s : State) : State :=
  sinkWrite (nextDuty s) { s with tidx := nextIndex s, tcnt := 0, duty := nextDuty s }

/-- `Tick()` (R90). -/
def tick (s : State) : State := if rollsOver s then rollover s else hold s

/-- The reset values of the six registers, without a sink write (R20, R175). -/
def resetRegisters (s : State) : State :=
  lowerStrobe { s with wave := 0, ndiv := 1, amp := 100, tidx := 0, tcnt := 0, duty := 0 }

end Sys2Proof.Machine
end

