-- ==== Sys2Proof/Machine/ConfigPort.lean ====
section
/-! DEFINITION. The writes of the configuration port (spec/43_config_port.md R125, R126, R130 to R133). -/

namespace Sys2Proof.Machine

/-- WR_WAVE w: `WAVE <- w`; the index is not reset (R130). -/
def execWrWave (w : WaveCode) (s : State) : Host.Outcome State Fault Refusal := .next (writeWave w (lowerStrobe s))

/-- WR_NDIV n: `NDIV <- ClampN(n)`; TCNT is not reset (R131). -/
def execWrNdiv (n : NdivWord) (s : State) : Host.Outcome State Fault Refusal := .next (writeNdiv n (lowerStrobe s))

/-- WR_AMP a: `AMP <- ClampA(a)`; DUTY is not rescaled (R132). -/
def execWrAmp (a : AmpWord) (s : State) : Host.Outcome State Fault Refusal := .next (writeAmp a (lowerStrobe s))

/-- WR_ALL w, n, a: the three registers at the end of one step (R133). -/
def execWrAll (w : WaveCode) (n : NdivWord) (a : AmpWord) (s : State) : Host.Outcome State Fault Refusal :=
  .next (writeAll w n a (lowerStrobe s))

end Sys2Proof.Machine
end

