-- ==== Sys2Proof/Machine/Control.lean ====
section
/-! DEFINITION. RESET (spec/70_reset_and_hazards.md R175), NOP (spec/43_config_port.md R129) and TICK (spec/41_sample_stepper.md R90). -/

namespace Sys2Proof.Machine

/-- RESET: the six reset values, no sink write, `duty_stb = 0` (R175, R176). The tables and the sink keep what they hold. -/
def execReset (s : State) : Host.Outcome State Fault Refusal := .next (resetRegisters s)

/-- NOP: every register keeps its value, no sink write, `duty_stb = 0` (R129). -/
def execNop (s : State) : Host.Outcome State Fault Refusal := .next (lowerStrobe s)

/-- TICK (R90). -/
def execTick (s : State) : Host.Outcome State Fault Refusal := .next (tick s)

end Sys2Proof.Machine
end

