-- ==== Sys2Proof/Machine/Fused.lean ====
section
/-! DEFINITION. Tick and write in one step: a TICK whose reads all precede the write
(spec/43_config_port.md R134 to R137, spec/20_memory.md R44). -/

namespace Sys2Proof.Machine

/-- T_WR_WAVE w: `Tick()`, then `WAVE <- w` (R134). -/
def execTWrWave (w : WaveCode) (s : State) : Host.Outcome State Fault Refusal := .next (writeWave w (tick s))

/-- T_WR_NDIV n: `Tick()`, then `NDIV <- ClampN(n)` (R135). -/
def execTWrNdiv (n : NdivWord) (s : State) : Host.Outcome State Fault Refusal := .next (writeNdiv n (tick s))

/-- T_WR_AMP a: `Tick()`, then `AMP <- ClampA(a)` (R136). -/
def execTWrAmp (a : AmpWord) (s : State) : Host.Outcome State Fault Refusal := .next (writeAmp a (tick s))

/-- T_WR_ALL w, n, a: `Tick()`, then the three writes (R137). -/
def execTWrAll (w : WaveCode) (n : NdivWord) (a : AmpWord) (s : State) : Host.Outcome State Fault Refusal :=
  .next (writeAll w n a (tick s))

end Sys2Proof.Machine
end

