-- ==== Sys2Proof/Machine/Dispatch.lean ====
section
/-! DEFINITION. The dispatch: one arm per operation of R55's table. -/

namespace Sys2Proof.Machine

def exec (i : Instr) (s : State) : Host.Outcome State Fault Refusal :=
  match i with
  | .reset => Sys2Proof.Machine.execReset s
  | .nop => Sys2Proof.Machine.execNop s
  | .tick => Sys2Proof.Machine.execTick s
  | .wrWave w => Sys2Proof.Machine.execWrWave w s
  | .wrNdiv n => Sys2Proof.Machine.execWrNdiv n s
  | .wrAmp a => Sys2Proof.Machine.execWrAmp a s
  | .wrAll w n a => Sys2Proof.Machine.execWrAll w n a s
  | .tWrWave w => Sys2Proof.Machine.execTWrWave w s
  | .tWrNdiv n => Sys2Proof.Machine.execTWrNdiv n s
  | .tWrAmp a => Sys2Proof.Machine.execTWrAmp a s
  | .tWrAll w n a => Sys2Proof.Machine.execTWrAll w n a s

end Sys2Proof.Machine
end

