-- ==== Sys2Proof/Machine/Step.lean ====
section
/-! DEFINITION. One step: consume one step input word, decode it, run it (spec/00_scope.md R6, spec/30_encoding.md R50). -/

namespace Sys2Proof.Machine

/-- One step (R6). Without a step input word no step happens (log entry 5). -/
def step (s : State) : Host.Outcome State Fault Refusal :=
  match fetch s with
  | none => .refused .awaitingInput
  | some (iw, s') => exec (decode iw) s'

/-- `s` with the word `w` (bit 0 the least significant) placed where step takes its next step input word: the head of
`inputs` (log entry 4). An instruction is one 22-bit word whatever the number of bits given (R50). -/
def State.withFetchWord (s : State) (_nbits w : Nat) : State := placeNext s (BitVec.ofNat 22 w)

end Sys2Proof.Machine
end

