-- ==== Sys2Proof/Machine/TraceText.lean ====
section
/-! DEFINITION. The trace text: the one-line spelling of an operation and the pseudo-operations (spec/30_encoding.md R59, R60).
It stands beside the machine; no step reads it. Text is a list of characters. -/

namespace Sys2Proof.Machine

/-- A line of trace text: an operation (R59) or one of the three pseudo-operations (R60). -/
inductive TraceLine where
  | op (i : Instr)
  /-- `TICKS k` -/
  | ticks (k : Nat)
  /-- `NOPS k` -/
  | nops (k : Nat)
  /-- `WR_AMPF x.yy`, with exactly two fraction digits `yy` -/
  | wrAmpf (x yy : Nat)
deriving DecidableEq, Repr

/-- The operations a line stands for, one step each (R60); none where `x.yy` has no two fraction digits `yy` or `100·x + yy`
is not a 7-bit value. -/
def expand : TraceLine → Option (List Instr)
  | .op i => some [i]
  | .ticks k => some (List.replicate k .tick)
  | .nops k => some (List.replicate k .nop)
  | .wrAmpf x yy => if yy < 100 ∧ 100 * x + yy < 128 then some [.wrAmp (BitVec.ofNat 7 (100 * x + yy))] else none

/-- The mnemonics and the waveform names as text (R59). -/
def mnemonicText : Instr → List Char
  | .reset => ['R', 'E', 'S', 'E', 'T']
  | .nop => ['N', 'O', 'P']
  | .tick => ['T', 'I', 'C', 'K']
  | .wrWave _ => ['W', 'R', '_', 'W', 'A', 'V', 'E']
  | .wrNdiv _ => ['W', 'R', '_', 'N', 'D', 'I', 'V']
  | .wrAmp _ => ['W', 'R', '_', 'A', 'M', 'P']
  | .wrAll _ _ _ => ['W', 'R', '_', 'A', 'L', 'L']
  | .tWrWave _ => ['T', '_', 'W', 'R', '_', 'W', 'A', 'V', 'E']
  | .tWrNdiv _ => ['T', '_', 'W', 'R', '_', 'N', 'D', 'I', 'V']
  | .tWrAmp _ => ['T', '_', 'W', 'R', '_', 'A', 'M', 'P']
  | .tWrAll _ _ _ => ['T', '_', 'W', 'R', '_', 'A', 'L', 'L']

/-- The operands of an operation, in the order R59 writes them. -/
def operandsOf : Instr → List Nat
  | .reset => []
  | .nop => []
  | .tick => []
  | .wrWave w => [w.toNat]
  | .wrNdiv n => [n.toNat]
  | .wrAmp a => [a.toNat]
  | .wrAll w n a => [w.toNat, n.toNat, a.toNat]
  | .tWrWave w => [w.toNat]
  | .tWrNdiv n => [n.toNat]
  | .tWrAmp a => [a.toNat]
  | .tWrAll w n a => [w.toNat, n.toNat, a.toNat]

/-- Decimal digits. -/
def decimalText (n : Nat) : List Char := Nat.toDigits 10 n

/-- Operands separated by commas (R59). -/
def operandText : List Nat → List Char
  | [] => []
  | [n] => decimalText n
  | n :: rest => decimalText n ++ ',' :: ' ' :: operandText rest

/-- The line that spells an operation (R59), operands in decimal. -/
def render (i : Instr) : List Char :=
  match operandsOf i with
  | [] => mnemonicText i
  | ns => mnemonicText i ++ ' ' :: operandText ns

/-- The value of a digit in the given base. -/
def digitValue (base : Nat) (c : Char) : Option Nat :=
  let v :=
    if '0' ≤ c ∧ c ≤ '9' then c.toNat - '0'.toNat
    else if 'a' ≤ c ∧ c ≤ 'f' then c.toNat - 'a'.toNat + 10
    else if 'A' ≤ c ∧ c ≤ 'F' then c.toNat - 'A'.toNat + 10
    else 16
  if v < base then some v else none

/-- The value of a run of digits, most significant first. -/
def digitsValue (base : Nat) (acc : Nat) : List Char → Option Nat
  | [] => some acc
  | c :: rest =>
    match digitValue base c with
    | none => none
    | some v => digitsValue base (base * acc + v) rest

/-- A number: decimal unless prefixed `0x` (R59). -/
def numberOf : List Char → Option Nat
  | [] => none
  | ['0', 'x'] => none
  | '0' :: 'x' :: ds => digitsValue 16 0 ds
  | ds => digitsValue 10 0 ds

/-- A number within a field of the given width (R59's ranges); none where it does not fit. -/
def fieldOf (width : Nat) (t : List Char) : Option (BitVec width) :=
  match numberOf t with
  | none => none
  | some v => if v < 2 ^ width then some (BitVec.ofNat width v) else none

/-- A waveform operand: `0..3` or one of the names SINE, SQUARE, SAW, TRI (R59). -/
def waveOperand (t : List Char) : Option WaveCode :=
  if t = ['S', 'I', 'N', 'E'] then some (codeOf .sine)
  else if t = ['S', 'Q', 'U', 'A', 'R', 'E'] then some (codeOf .square)
  else if t = ['S', 'A', 'W'] then some (codeOf .sawtooth)
  else if t = ['T', 'R', 'I'] then some (codeOf .triangle)
  else fieldOf 2 t

/-- `x.yy` with exactly two fraction digits (R60). -/
def fractionOf (t : List Char) : Option (Nat × Nat) :=
  match t.splitOn '.' with
  | [x, yy] =>
    match x, digitsValue 10 0 x, yy.length == 2, digitsValue 10 0 yy with
    | _ :: _, some a, true, some b => some (a, b)
    | _, _, _, _ => none
  | _ => none

/-- A mnemonic and its operands as a line (R59, R60); none where they spell nothing. -/
def lineOf (m : List Char) (ops : List (List Char)) : Option TraceLine :=
  match ops with
  | [] =>
    if m = mnemonicText .reset then some (.op .reset)
    else if m = mnemonicText .nop then some (.op .nop)
    else if m = mnemonicText .tick then some (.op .tick)
    else none
  | [x] =>
    if m = mnemonicText (.wrWave 0) then (waveOperand x).map fun w => .op (.wrWave w)
    else if m = mnemonicText (.wrNdiv 0) then (fieldOf 8 x).map fun n => .op (.wrNdiv n)
    else if m = mnemonicText (.wrAmp 0) then (fieldOf 7 x).map fun a => .op (.wrAmp a)
    else if m = mnemonicText (.tWrWave 0) then (waveOperand x).map fun w => .op (.tWrWave w)
    else if m = mnemonicText (.tWrNdiv 0) then (fieldOf 8 x).map fun n => .op (.tWrNdiv n)
    else if m = mnemonicText (.tWrAmp 0) then (fieldOf 7 x).map fun a => .op (.tWrAmp a)
    else if m = ['T', 'I', 'C', 'K', 'S'] then (numberOf x).map .ticks
    else if m = ['N', 'O', 'P', 'S'] then (numberOf x).map .nops
    else if m = ['W', 'R', '_', 'A', 'M', 'P', 'F'] then (fractionOf x).map fun q => .wrAmpf q.1 q.2
    else none
  | [x, y, z] =>
    match waveOperand x, fieldOf 8 y, fieldOf 7 z with
    | some w, some n, some a =>
      if m = mnemonicText (.wrAll 0 0 0) then some (.op (.wrAll w n a))
      else if m = mnemonicText (.tWrAll 0 0 0) then some (.op (.tWrAll w n a))
      else none
    | _, _, _ => none
  | _ => none

/-- Text without the spaces around it. -/
def trimText (t : List Char) : List Char :=
  ((t.dropWhile (· == ' ')).reverse.dropWhile (· == ' ')).reverse

/-- The operations one line spells, one step each (R59, R60): none where the text is no line; no operation where nothing but
spaces stands before a `;` or the line's end. -/
def parseLine (line : List Char) : Option (List Instr) :=
  let t := trimText (line.takeWhile (· != ';'))
  if t.isEmpty then some []
  else
    let m := t.takeWhile (· != ' ')
    let rest := trimText (t.dropWhile (· != ' '))
    let ops := if rest.isEmpty then [] else (rest.splitOn ',').map trimText
    (lineOf m ops).bind expand

/-- The operations of a text, line by line (R59: one operation per line). -/
def parseText (text : List Char) : Option (List Instr) :=
  ((text.splitOn '\n').mapM parseLine).map List.flatten

end Sys2Proof.Machine
end

