-- ==== Sys2Proof/Safety.lean ====
section
/-! DEFINITION. What a legal state and a safe run are (spec/10_state.md R19, spec/60_exceptions.md R153, R162). -/

namespace Sys2Proof.Machine

/-- The ranges of R19: `1 <= NDIV <= 200`, `1 <= AMP <= 100`, `0 <= TIDX <= R-1`, `0 <= TCNT <= 199`,
`0 <= DUTY <= min(2H, P)`; every WAVE code is legal (R13). -/
abbrev State.Legal (s : State) : Prop :=
  1 ≤ s.ndiv.toNat ∧ s.ndiv.toNat ≤ 200 ∧ 1 ≤ s.amp.toNat ∧ s.amp.toNat ≤ 100 ∧
    s.tidx < s.cfg.r ∧ s.tcnt.toNat ≤ 199 ∧ s.duty ≤ s.cfg.dutyMax

/-- Every value the sink was given lies in `0..min(2H, P)`: the caller's duty of R162, and R75's bound. -/
abbrev State.SinkInRange (s : State) : Prop := ∀ d ∈ s.sink, d ≤ s.cfg.dutyMax

/-- A legal state that has kept the sink's contract. -/
abbrev State.Safe (s : State) : Prop := s.Legal ∧ s.SinkInRange

end Sys2Proof.Machine
end

