-- ==== Sys2Proof/Certificates/Slice0/Obligations.lean ====
section
/-! DEFINITION. The statements for the provers, in the order of OBLIGATIONS.json. Each docstring names the rule of spec/ it
formalises. An instance is `s.cfg`, any one; nothing here rests on the free value of Config. -/

open Sys2Proof Sys2Proof.Machine

/-! ## Encoding -/

/-- The example words of spec/30_encoding.md section 3 and spec/95_test_vectors.md V-DEC decode to what they are listed as. -/
def Obligations.SpecExampleWordsDecode : Prop :=
  decode 0x2A5A5A = .reset ∧ decode 0x07FFFF = .nop ∧ decode 0x13C0DE = .tick ∧ decode 0x098000 = .wrWave 3 ∧
    decode 0x0A6400 = .wrNdiv 200 ∧ decode 0x0C0025 = .wrAmp 37 ∧ decode 0x0F02B2 = .wrAll 2 5 50 ∧
    decode 0x188000 = .tWrWave 1 ∧ decode 0x1B0080 = .tWrNdiv 1 ∧ decode 0x1C0001 = .tWrAmp 1 ∧
    decode 0x1F8132 = .tWrAll 3 2 50

/-- R55, R56: decoding the canonical word of any operation gives it back, with every operand at every value. -/
def Obligations.DecodeOfEncodeIsTheOperation : Prop := ∀ i : Instr, decode (encode i) = i

/-- R56: the canonical spelling has every ignored bit 0; every word is accepted, and spelling again what it decodes to clears
its ignored bits and changes no other bit. -/
def Obligations.CanonicalWordsHaveIgnoredBitsZero : Prop :=
  (∀ i : Instr, encode i &&& (rowOf i).ignored = 0) ∧
    ∀ iw : StepWord, encode (decode iw) = iw &&& ~~~(rowOf (decode iw)).ignored

/-- R57: two words that differ in ignored bits only give the same step; no word is refused or raises an exception; and data
outside a register's range is clamped into it, never rejected. -/
def Obligations.IgnoredBitsHaveNoEffect : Prop :=
  (∀ (s : State) (iw iw' : StepWord) (rest : List StepWord),
      iw &&& ~~~(rowOf (decode iw)).ignored = iw' &&& ~~~(rowOf (decode iw)).ignored →
        step { s with inputs := iw :: rest } = step { s with inputs := iw' :: rest }) ∧
    (∀ (s : State) (iw : StepWord) (rest : List StepWord), ∃ t, step { s with inputs := iw :: rest } = .next t) ∧
    ∀ (s : State) (w : WaveCode) (n : NdivWord) (a : AmpWord), ∃ t, exec (.wrAll w n a) s = .next t ∧
      t.ndiv.toNat = min (max n.toNat 1) 200 ∧ t.amp.toNat = min (max a.toNat 1) 100

/-- R55: the table of masks and patterns; every word spells exactly one of its rows, the row of the operation it decodes to;
and that operation is decided by `rst`, then `{tick, we}`, then `sel`. -/
def Obligations.EveryWordSpellsExactlyOneOperation : Prop :=
  (opcodeTable.map fun r => (r.mnemonic, r.mask, r.pattern)) =
      [("RESET", 0x200000, 0x200000), ("NOP", 0x380000, 0x000000), ("TICK", 0x380000, 0x100000),
       ("WR_WAVE", 0x3E0000, 0x080000), ("WR_NDIV", 0x3E0000, 0x0A0000), ("WR_AMP", 0x3E0000, 0x0C0000),
       ("WR_ALL", 0x3E0000, 0x0E0000), ("T_WR_WAVE", 0x3E0000, 0x180000), ("T_WR_NDIV", 0x3E0000, 0x1A0000),
       ("T_WR_AMP", 0x3E0000, 0x1C0000), ("T_WR_ALL", 0x3E0000, 0x1E0000)] ∧
    (∀ iw : StepWord, (opcodeTable.filter fun r => iw &&& r.mask == r.pattern) = [rowOf (decode iw)]) ∧
    ∀ iw : StepWord,
      decode iw =
        if iw.getLsbD 21 then .reset
        else if !iw.getLsbD 20 && !iw.getLsbD 19 then .nop
        else if iw.getLsbD 20 && !iw.getLsbD 19 then .tick
        else if !iw.getLsbD 20 then
          if iw.extractLsb' 17 2 = 0 then .wrWave (iw.extractLsb' 15 2)
          else if iw.extractLsb' 17 2 = 1 then .wrNdiv (iw.extractLsb' 7 8)
          else if iw.extractLsb' 17 2 = 2 then .wrAmp (iw.extractLsb' 0 7)
          else .wrAll (iw.extractLsb' 15 2) (iw.extractLsb' 7 8) (iw.extractLsb' 0 7)
        else
          if iw.extractLsb' 17 2 = 0 then .tWrWave (iw.extractLsb' 15 2)
          else if iw.extractLsb' 17 2 = 1 then .tWrNdiv (iw.extractLsb' 7 8)
          else if iw.extractLsb' 17 2 = 2 then .tWrAmp (iw.extractLsb' 0 7)
          else .tWrAll (iw.extractLsb' 15 2) (iw.extractLsb' 7 8) (iw.extractLsb' 0 7)

/-- R52: the word is the concatenation of the ports at the listed bits, and the ports are those bits of the word. -/
def Obligations.StepWordIsTheConcatenationOfThePorts : Prop :=
  (∀ q : Ports,
      (wordOf q).toNat =
        2 ^ 21 * q.rst.toNat + 2 ^ 20 * q.tick.toNat + 2 ^ 19 * q.we.toNat + 2 ^ 17 * q.sel.toNat + 2 ^ 15 * q.wave.toNat +
          2 ^ 7 * q.ndiv.toNat + q.amp.toNat) ∧
    (∀ q : Ports, portsOf (wordOf q) = q) ∧ ∀ iw : StepWord, wordOf (portsOf iw) = iw

/-- R53: the codes of `sel` and `wave`. -/
def Obligations.SelAndWaveFieldsDecode : Prop :=
  (targetOf 0b00 = .wave ∧ targetOf 0b01 = .ndiv ∧ targetOf 0b10 = .amp ∧ targetOf 0b11 = .all) ∧
    waveformOf 0 = .sine ∧ waveformOf 1 = .square ∧ waveformOf 2 = .sawtooth ∧ waveformOf 3 = .triangle

/-! ## The step -/

/-- R6, R50: a step consumes one word and is the decoded operation on the state without it. The list of words to come is the
model's field (log entry 4). -/
def Obligations.StepRunsTheDecodedOperation : Prop :=
  ∀ (s : State) (iw : StepWord) (rest : List StepWord),
    step { s with inputs := iw :: rest } = exec (decode iw) { s with inputs := rest }

/-- R6: without a step input word there is no step. The refusal is the model's (log entry 5). -/
def Obligations.WithoutAWordThereIsNoStep : Prop :=
  ∀ s : State, step { s with inputs := [] } = .refused .awaitingInput

/-- R176: a word with `rst = 1` resets whatever its other bits: no TICK, no write. That the sink trace stays as it was is the
model's reading of 'since reset' (log entry 6). -/
def Obligations.ResetDominatesItsWord : Prop :=
  ∀ (s : State) (iw : StepWord) (rest : List StepWord), iw.getLsbD 21 = true →
    step { s with inputs := iw :: rest } =
      .next { s with wave := 0, ndiv := 1, amp := 100, tidx := 0, tcnt := 0, duty := 0, dutyStb := false, inputs := rest }

/-! ## The eleven operations: encoding, effect and frame -/

/-- R175, with R20's values and no sink write. That RESET keeps the sink trace from before it is the model's reading of
'since reset' (log entry 6). -/
def Obligations.ResetWritesTheResetValues : Prop :=
  (∀ s : State,
      exec .reset s =
        .next { s with wave := 0, ndiv := 1, amp := 100, tidx := 0, tcnt := 0, duty := 0, dutyStb := false }) ∧
    (∀ iw : StepWord, iw.getLsbD 21 = true → decode iw = .reset) ∧ encode .reset = 0x200000

/-- R129. -/
def Obligations.NopKeepsEveryRegister : Prop :=
  (∀ s : State, exec .nop s = .next { s with dutyStb := false }) ∧
    (∀ iw : StepWord, iw.extractLsb' 19 3 = 0b000 → decode iw = .nop) ∧ encode .nop = 0x000000

/-- R90: the whole of TICK. -/
def Obligations.TickHoldsOrRollsOver : Prop :=
  (∀ s : State,
      exec .tick s =
        .next
          (if s.tcnt.toNat + 1 < s.ndiv.toNat then
            { s with tcnt := BitVec.ofNat 8 (s.tcnt.toNat + 1), dutyStb := false }
          else
            { s with
              tidx := (s.tidx + 1) % s.cfg.r
              tcnt := 0
              duty := min ((lutRead s.cfg s.wave ((s.tidx + 1) % s.cfg.r) * s.amp.toNat + 50) / 100) s.cfg.p
              dutyStb := true
              sink :=
                s.sink ++
                  [min ((lutRead s.cfg s.wave ((s.tidx + 1) % s.cfg.r) * s.amp.toNat + 50) / 100) s.cfg.p] })) ∧
    (∀ iw : StepWord, iw.extractLsb' 19 3 = 0b010 → decode iw = .tick) ∧ encode .tick = 0x100000

/-- R91: a TICK with `TCNT + 1 < NDIV` changes only TCNT, to `TCNT + 1`. -/
def Obligations.TickHoldChangesOnlyTheCounter : Prop :=
  ∀ s : State, s.tcnt.toNat + 1 < s.ndiv.toNat →
    ∃ t, exec .tick s = .next t ∧ t.tcnt.toNat = s.tcnt.toNat + 1 ∧ t = { s with tcnt := t.tcnt, dutyStb := false }

/-- R92: a TICK with `TCNT + 1 >= NDIV` advances the index by one position modulo R, reads the active table at the new index
and clears TCNT; no TICK moves the index otherwise. -/
def Obligations.TickRolloverAdvancesTheIndexByOne : Prop :=
  (∀ s : State, s.ndiv.toNat ≤ s.tcnt.toNat + 1 →
      ∃ t, exec .tick s = .next t ∧ t.tidx = (s.tidx + 1) % s.cfg.r ∧ t.tcnt = 0 ∧
        t.duty = clip s.cfg (scale (lutRead s.cfg s.wave t.tidx) s.amp.toNat)) ∧
    ∀ s t : State, exec .tick s = .next t → t.tidx = s.tidx ∨ t.tidx = (s.tidx + 1) % s.cfg.r

/-- R130. -/
def Obligations.WrWaveWritesTheSelector : Prop :=
  (∀ (w : WaveCode) (s : State), exec (.wrWave w) s = .next { s with wave := w, dutyStb := false }) ∧
    (∀ iw : StepWord, iw.extractLsb' 17 5 = 0b00100 → decode iw = .wrWave (iw.extractLsb' 15 2)) ∧
    ∀ w : WaveCode, encode (.wrWave w) = 0x080000 ||| (w.setWidth 22 <<< 15)

/-- R131, with R127's clamp. -/
def Obligations.WrNdivWritesTheClampedValue : Prop :=
  (∀ (n : NdivWord) (s : State),
      exec (.wrNdiv n) s = .next { s with ndiv := BitVec.ofNat 8 (min (max n.toNat 1) 200), dutyStb := false }) ∧
    (∀ iw : StepWord, iw.extractLsb' 17 5 = 0b00101 → decode iw = .wrNdiv (iw.extractLsb' 7 8)) ∧
    ∀ n : NdivWord, encode (.wrNdiv n) = 0x0A0000 ||| (n.setWidth 22 <<< 7)

/-- R132, with R128's clamp. -/
def Obligations.WrAmpWritesTheClampedValue : Prop :=
  (∀ (a : AmpWord) (s : State),
      exec (.wrAmp a) s = .next { s with amp := BitVec.ofNat 7 (min (max a.toNat 1) 100), dutyStb := false }) ∧
    (∀ iw : StepWord, iw.extractLsb' 17 5 = 0b00110 → decode iw = .wrAmp (iw.extractLsb' 0 7)) ∧
    ∀ a : AmpWord, encode (.wrAmp a) = 0x0C0000 ||| a.setWidth 22

/-- R133. -/
def Obligations.WrAllWritesTheThreeRegisters : Prop :=
  (∀ (w : WaveCode) (n : NdivWord) (a : AmpWord) (s : State),
      exec (.wrAll w n a) s =
        .next
          { s with
            wave := w
            ndiv := BitVec.ofNat 8 (min (max n.toNat 1) 200)
            amp := BitVec.ofNat 7 (min (max a.toNat 1) 100)
            dutyStb := false }) ∧
    (∀ iw : StepWord, iw.extractLsb' 17 5 = 0b00111 →
      decode iw = .wrAll (iw.extractLsb' 15 2) (iw.extractLsb' 7 8) (iw.extractLsb' 0 7)) ∧
    ∀ (w : WaveCode) (n : NdivWord) (a : AmpWord),
      encode (.wrAll w n a) = 0x0E0000 ||| (w.setWidth 22 <<< 15) ||| (n.setWidth 22 <<< 7) ||| a.setWidth 22

/-- R134: TICK on the state before the step, then the write. -/
def Obligations.TWrWaveTicksThenWrites : Prop :=
  (∀ (w : WaveCode) (s : State),
      ∃ u, exec .tick s = .next u ∧ exec (.tWrWave w) s = .next { u with wave := w }) ∧
    (∀ iw : StepWord, iw.extractLsb' 17 5 = 0b01100 → decode iw = .tWrWave (iw.extractLsb' 15 2)) ∧
    ∀ w : WaveCode, encode (.tWrWave w) = 0x180000 ||| (w.setWidth 22 <<< 15)

/-- R135. -/
def Obligations.TWrNdivTicksThenWrites : Prop :=
  (∀ (n : NdivWord) (s : State),
      ∃ u, exec .tick s = .next u ∧
        exec (.tWrNdiv n) s = .next { u with ndiv := BitVec.ofNat 8 (min (max n.toNat 1) 200) }) ∧
    (∀ iw : StepWord, iw.extractLsb' 17 5 = 0b01101 → decode iw = .tWrNdiv (iw.extractLsb' 7 8)) ∧
    ∀ n : NdivWord, encode (.tWrNdiv n) = 0x1A0000 ||| (n.setWidth 22 <<< 7)

/-- R136. -/
def Obligations.TWrAmpTicksThenWrites : Prop :=
  (∀ (a : AmpWord) (s : State),
      ∃ u, exec .tick s = .next u ∧
        exec (.tWrAmp a) s = .next { u with amp := BitVec.ofNat 7 (min (max a.toNat 1) 100) }) ∧
    (∀ iw : StepWord, iw.extractLsb' 17 5 = 0b01110 → decode iw = .tWrAmp (iw.extractLsb' 0 7)) ∧
    ∀ a : AmpWord, encode (.tWrAmp a) = 0x1C0000 ||| a.setWidth 22

/-- R137. -/
def Obligations.TWrAllTicksThenWrites : Prop :=
  (∀ (w : WaveCode) (n : NdivWord) (a : AmpWord) (s : State),
      ∃ u, exec .tick s = .next u ∧
        exec (.tWrAll w n a) s =
          .next
            { u with
              wave := w
              ndiv := BitVec.ofNat 8 (min (max n.toNat 1) 200)
              amp := BitVec.ofNat 7 (min (max a.toNat 1) 100) }) ∧
    (∀ iw : StepWord, iw.extractLsb' 17 5 = 0b01111 →
      decode iw = .tWrAll (iw.extractLsb' 15 2) (iw.extractLsb' 7 8) (iw.extractLsb' 0 7)) ∧
    ∀ (w : WaveCode) (n : NdivWord) (a : AmpWord),
      encode (.tWrAll w n a) = 0x1E0000 ||| (w.setWidth 22 <<< 15) ||| (n.setWidth 22 <<< 7) ||| a.setWidth 22

/-- R44: for every write word, the word with its `tick` bit set steps as a TICK word and then the write word do; the strobe is
that of the TICK. -/
def Obligations.FusedWordIsATickWordThenTheWriteWord : Prop :=
  ∀ (s : State) (iw : StepWord) (rest : List StepWord),
    iw.getLsbD 21 = false → iw.getLsbD 20 = false → iw.getLsbD 19 = true →
      ∃ u v, step { s with inputs := 0x100000 :: iw :: rest } = .next u ∧ step u = .next v ∧
        step { s with inputs := (iw ||| 0x100000) :: rest } = .next { v with dutyStb := u.dutyStb }

/-- R133, R43: three single writes with no TICK between them leave what WR_ALL leaves. -/
def Obligations.WrAllEqualsThreeSingleWrites : Prop :=
  ∀ (s : State) (w : WaveCode) (n : NdivWord) (a : AmpWord),
    ∃ u v t, exec (.wrAmp a) s = .next u ∧ exec (.wrNdiv n) u = .next v ∧ exec (.wrWave w) v = .next t ∧
      exec (.wrAll w n a) s = .next t

/-- R96: parameters are sampled at every TICK: (a) a write that lowers NDIV to at most `TCNT + 1` makes the next TICK roll
over, (b) one that raises it above makes it hold, (c) writes of AMP and WAVE leave DUTY, and so does a TICK after them that does
not roll over, (d) a rollover after a write of WAVE reads the new table at the continuing index, and after a write of AMP scales
with the new amplitude. -/
def Obligations.ParametersAreSampledAtEveryTick : Prop :=
  (∀ (s : State) (n : NdivWord), min (max n.toNat 1) 200 ≤ s.tcnt.toNat + 1 →
      ∃ u t, exec (.wrNdiv n) s = .next u ∧ exec .tick u = .next t ∧
        t.tidx = (s.tidx + 1) % s.cfg.r ∧ t.tcnt = 0 ∧ t.dutyStb = true) ∧
    (∀ (s : State) (n : NdivWord), s.tcnt.toNat + 1 < min (max n.toNat 1) 200 →
      ∃ u t, exec (.wrNdiv n) s = .next u ∧ exec .tick u = .next t ∧
        t.tidx = s.tidx ∧ t.tcnt.toNat = s.tcnt.toNat + 1 ∧ t.dutyStb = false ∧ t.duty = s.duty) ∧
    (∀ (s : State) (w : WaveCode) (a : AmpWord),
      ∃ u v, exec (.wrWave w) s = .next u ∧ exec (.wrAmp a) s = .next v ∧ u.duty = s.duty ∧ v.duty = s.duty ∧
        u.tidx = s.tidx ∧ v.tidx = s.tidx ∧
        (s.tcnt.toNat + 1 < s.ndiv.toNat →
          ∃ u' v', exec .tick u = .next u' ∧ exec .tick v = .next v' ∧ u'.duty = s.duty ∧ v'.duty = s.duty)) ∧
    ∀ (s : State) (w : WaveCode) (a : AmpWord), s.ndiv.toNat ≤ s.tcnt.toNat + 1 →
      (∃ u t, exec (.wrWave w) s = .next u ∧ exec .tick u = .next t ∧
          t.duty = clip s.cfg (scale (lutRead s.cfg w ((s.tidx + 1) % s.cfg.r)) s.amp.toNat)) ∧
        ∃ u t, exec (.wrAmp a) s = .next u ∧ exec .tick u = .next t ∧
          t.duty = clip s.cfg (scale (lutRead s.cfg s.wave ((s.tidx + 1) % s.cfg.r)) (min (max a.toNat 1) 100))

/-! ## Clamps, Scale, Clip -/

/-- R127. -/
def Obligations.ClampNClampsToOneAndTwoHundred : Prop :=
  ∀ n : NdivWord,
    (clampN n).toNat = min (max n.toNat 1) 200 ∧ (n.toNat = 0 → (clampN n).toNat = 1) ∧
      (1 ≤ n.toNat → n.toNat ≤ 200 → clampN n = n) ∧ (201 ≤ n.toNat → (clampN n).toNat = 200)

/-- R128. -/
def Obligations.ClampAClampsToOneAndOneHundred : Prop :=
  ∀ a : AmpWord,
    (clampA a).toNat = min (max a.toNat 1) 100 ∧ (a.toNat = 0 → (clampA a).toNat = 1) ∧
      (1 ≤ a.toNat → a.toNat ≤ 100 → clampA a = a) ∧ (101 ≤ a.toNat → (clampA a).toNat = 100)

/-- R110: Scale is the rounded product, ties up, and its intermediate is at most `200·H + 50`. -/
def Obligations.ScaleIsTheRoundedProduct : Prop :=
  (∀ s a : Nat, (scale s a : ℤ) = ⌊(s : ℚ) * (a : ℚ) / 100 + 1 / 2⌋ ∧ scale s a = (s * a + 50) / 100) ∧
    ∀ (c : Config) (s a : Nat), s ≤ 2 * c.h → a ≤ 100 → s * a + 50 ≤ 200 * c.h + 50

/-- R111. -/
def Obligations.ScaleProperties : Prop :=
  (∀ s : Nat, scale s 100 = s) ∧ (∀ a : Nat, scale 0 a = 0) ∧ (∀ s a : Nat, a ≤ 100 → scale s a ≤ s) ∧
    (∀ (c : Config) (s a : Nat), s ≤ 2 * c.h → a ≤ 100 → scale s a ≤ 2 * c.h) ∧
    (∀ s s' a : Nat, s ≤ s' → scale s a ≤ scale s' a) ∧ (∀ s a a' : Nat, a ≤ a' → scale s a ≤ scale s a') ∧
    (∀ s : Nat, scale s 1 = 0 ↔ s < 50) ∧
    (∀ q ∈ [(50, 1), (150, 1), (25, 2), (1, 50), (3, 50), (10, 5)], (q.1 * q.2) % 100 = 50) ∧
    ∀ h : Nat, 2 * h % 4 = 2 → (2 * h * 25) % 100 = 50

/-- R112: Clip is `min(v, P)`; with `P = 2H` it changes no value a TICK can produce, and with any `P` the result is within the
sink's period. -/
def Obligations.ClipIsTheIdentityForTheSpecPeriod : Prop :=
  (∀ (c : Config) (v : Nat), clip c v = min v c.p ∧ clip c v ≤ c.p) ∧
    ∀ (c : Config) (w : WaveCode) (i a : Nat), c.p = 2 * c.h → i < c.r → a ≤ 100 →
      clip c (scale (lutRead c w i) a) = scale (lutRead c w i) a

/-- R113: what DUTY holds after any operation. -/
def Obligations.DutyChangesOnlyAtARolloverOrReset : Prop :=
  ∀ (i : Instr) (s : State), ∃ t, exec i s = .next t ∧
    t.duty =
      if i = .reset then 0
      else if ticks i = true ∧ s.ndiv.toNat ≤ s.tcnt.toNat + 1 then
        min (scale (lutRead s.cfg s.wave ((s.tidx + 1) % s.cfg.r)) s.amp.toNat) s.cfg.p
      else s.duty

/-! ## The tables -/

/-- R71: entry `i` is `round(H·(1 + sin(2π·i/R)))` with the real sine, and the corner entries. -/
def Obligations.SineEntriesRoundTheRealSine : Prop :=
  ∀ c : Config,
    (∀ i, i < c.r →
        (sineEntry c i : ℤ) = ⌊(c.h : ℝ) * (1 + Real.sin (2 * Real.pi * (i : ℝ) / (c.r : ℝ))) + 1 / 2⌋) ∧
      sineEntry c 0 = c.h ∧ sineEntry c (c.r / 2) = c.h ∧
      (4 ≤ c.r → sineEntry c (c.r / 4) = 2 * c.h ∧ sineEntry c (3 * c.r / 4) = 0)

/-- R72: Square from the rounded Sine entry, and its corner entries, whatever `H`. -/
def Obligations.SquareComparesTheRoundedSine : Prop :=
  ∀ c : Config,
    (∀ i : Nat, squareEntry c i = if sineEntry c i > c.h then 2 * c.h else 0) ∧
      squareEntry c 0 = 0 ∧ squareEntry c (c.r / 2) = 0 ∧ ∀ i, c.r / 2 ≤ i → i < c.r → squareEntry c i = 0

/-- R73: Sawtooth is the floor of the ramp, non-decreasing, with its corner entries; with `2H < R` two neighbours are equal. -/
def Obligations.SawtoothIsTheFlooredRamp : Prop :=
  ∀ c : Config,
    (∀ i : Nat, (sawtoothEntry c i : ℤ) = ⌊(2 : ℚ) * (c.h : ℚ) * (i : ℚ) / (c.r : ℚ)⌋ ∧
        sawtoothEntry c i = 2 * c.h * i / c.r) ∧
      (∀ i j : Nat, i ≤ j → sawtoothEntry c i ≤ sawtoothEntry c j) ∧
      sawtoothEntry c 0 = 0 ∧ sawtoothEntry c (c.r / 2) = c.h ∧
      (∀ i, i < c.r → sawtoothEntry c i ≤ 2 * c.h - 1) ∧
      (2 * c.h < c.r → ∃ i, i + 1 < c.r ∧ sawtoothEntry c i = sawtoothEntry c (i + 1))

/-- R74: Triangle is the floor of the symmetric ramp, with its corner entries; exact when R divides 4H. -/
def Obligations.TriangleIsTheFlooredSymmetricRamp : Prop :=
  ∀ c : Config,
    (∀ i, i < c.r →
        (triangleEntry c i : ℤ) = ⌊(2 : ℚ) * (c.h : ℚ) * (min i (c.r - i) : ℕ) / ((c.r : ℚ) / 2)⌋ ∧
          triangleEntry c i = 4 * c.h * min i (c.r - i) / c.r) ∧
      triangleEntry c 0 = 0 ∧ triangleEntry c (c.r / 2) = 2 * c.h ∧
      (∀ i, 0 < i → i < c.r → triangleEntry c i = triangleEntry c (c.r - i)) ∧
      (c.r ∣ 4 * c.h → ∀ i, triangleEntry c i * c.r = 4 * c.h * min i (c.r - i))

/-- R75: the range of every table; an entry fits in `W` bits. -/
def Obligations.TableEntriesAreInRange : Prop :=
  ∀ (c : Config) (i : Nat), i < c.r →
    sineEntry c i ≤ 2 * c.h ∧ (squareEntry c i = 0 ∨ squareEntry c i = 2 * c.h) ∧ sawtoothEntry c i ≤ 2 * c.h - 1 ∧
      triangleEntry c i ≤ 2 * c.h ∧ ∀ w : WaveCode, lutRead c w i ≤ 2 * c.h ∧ lutRead c w i < 2 ^ c.w

/-- R76: the half-wave and quarter-wave symmetries of the Sine table; no entry is a rounding tie. -/
def Obligations.SineTableSymmetries : Prop :=
  ∀ c : Config,
    (∀ j, j ≤ c.r / 2 →
        (sineEntry c j : ℤ) = c.h + ⌊(c.h : ℝ) * Real.sin (2 * Real.pi * (j : ℝ) / (c.r : ℝ)) + 1 / 2⌋) ∧
      (∀ j, j < c.r / 2 →
        (sineEntry c (c.r / 2 + j) : ℤ) =
          c.h - ⌊(c.h : ℝ) * Real.sin (2 * Real.pi * (j : ℝ) / (c.r : ℝ)) + 1 / 2⌋) ∧
      (∀ j, j ≤ c.r / 2 → sineEntry c (c.r / 2 - j) = sineEntry c j) ∧
      ∀ i, i < c.r → ∀ m : ℤ, (c.h : ℝ) * (1 + Real.sin (2 * Real.pi * (i : ℝ) / (c.r : ℝ))) ≠ m + 1 / 2

/-- R77, R186: the closed form of Square; once `H·sin(2π/R) > 1/2` (at `R = 128`: `H ≥ 11`) it is high for exactly `R/2 - 1`
entries and low for `R/2 + 1`; and the two smaller `H` the rule works out at `R = 128`. -/
def Obligations.SquareClosedForm : Prop :=
  ∀ c : Config,
    (∀ i, i < c.r →
        (squareEntry c i = 2 * c.h ↔
          0 < i ∧ i < c.r / 2 ∧ (c.h : ℝ) * Real.sin (2 * Real.pi * (i : ℝ) / (c.r : ℝ)) > 1 / 2) ∧
        (squareEntry c i = 2 * c.h ∨ squareEntry c i = 0)) ∧
      ((c.h : ℝ) * Real.sin (2 * Real.pi / (c.r : ℝ)) > 1 / 2 →
        (∀ i, i < c.r → (squareEntry c i = 2 * c.h ↔ 1 ≤ i ∧ i ≤ c.r / 2 - 1)) ∧
          (List.range c.r).countP (fun i => squareEntry c i == 2 * c.h) = c.r / 2 - 1 ∧
          (List.range c.r).countP (fun i => squareEntry c i == 0) = c.r / 2 + 1) ∧
      (c.r = 128 →
        ((c.h : ℝ) * Real.sin (2 * Real.pi / (c.r : ℝ)) > 1 / 2 ↔ 11 ≤ c.h) ∧
          (c.h = 10 → ∀ i, i < 128 → (squareEntry c i = 20 ↔ 2 ≤ i ∧ i ≤ 62)) ∧
          (c.h = 1 → ∀ i, i < 128 → (squareEntry c i = 2 ↔ 11 ≤ i ∧ i ≤ 53)))

/-- R80, R76, R78: every legal `(K, H)` has an instance; in every instance the Sine entry is within 1/2 of the real value and no
other integer is; and two instances with one `K` and one `H` have the same four tables. -/
def Obligations.SineTableExistsAndIsUnique : Prop :=
  (∀ k h : Nat, 1 ≤ k → 1 ≤ h → ∃ c : Config, c.k = k ∧ c.h = h ∧ c.p = 2 * h) ∧
    (∀ (c : Config) (i : Nat), i < c.r → ∀ n : ℤ,
      |(n : ℝ) - (c.h : ℝ) * (1 + Real.sin (2 * Real.pi * (i : ℝ) / (c.r : ℝ)))| < 1 / 2 ↔ n = sineEntry c i) ∧
    ∀ c c' : Config, c.k = c'.k → c.h = c'.h → c.sine = c'.sine ∧ ∀ (w : WaveCode) (i : Nat), lutRead c w i = lutRead c' w i

/-- R31 (with R32 and the codes of R13): the LUT space holds `4·R` words of `W` bits, at addresses of `K + 2` bits; address
`w·R + i` is `LutRead(w, i)`, which is entry `i` of the table with number `w`: Sine, Square, Sawtooth, Triangle; every address
is one such. -/
def Obligations.LutSpaceIsFourTablesInOrder : Prop :=
  ∀ c : Config,
    (∀ (w : WaveCode) (i : Nat), i < c.r →
        lutAddr c w i = w.toNat * c.r + i ∧ lutAddr c w i < 4 * c.r ∧ lutWord c (lutAddr c w i) = some (lutRead c w i)) ∧
      (∀ i : Nat, i < c.r →
        lutWord c i = some (sineEntry c i) ∧ lutWord c (c.r + i) = some (squareEntry c i) ∧
          lutWord c (2 * c.r + i) = some (sawtoothEntry c i) ∧ lutWord c (3 * c.r + i) = some (triangleEntry c i)) ∧
      (∀ i : Nat, i < c.r →
        lutRead c 0 i = sineEntry c i ∧ lutRead c 1 i = squareEntry c i ∧ lutRead c 2 i = sawtoothEntry c i ∧
          lutRead c 3 i = triangleEntry c i) ∧
      (∀ addr : Nat, addr < 4 * c.r → ∃ (w : WaveCode) (i : Nat), i < c.r ∧ addr = lutAddr c w i) ∧
      (∀ addr : Nat, 4 * c.r ≤ addr → lutWord c addr = none) ∧
      4 * c.r = 2 ^ (c.k + 2) ∧ ∀ addr v : Nat, lutWord c addr = some v → v < 2 ^ c.w

/-- R70, R150: BUILD raises ConfigurationError exactly for an R that is no power of two or below 2 and for an H below 1, with
that value, R first, and otherwise constructs the instance; R70's corner case at `R = 2`. Where the Sine table is supplied (R80)
the checks are the same, and a table that is not R words within 1/2 of the real values is refused (log entry 11). -/
def Obligations.BuildRefusesExactlyTheIllegalParameters : Prop :=
  (∀ r h : Nat,
    ((¬∃ k, 1 ≤ k ∧ r = 2 ^ k) → build r h = .error (.configurationError r)) ∧
      ((∃ k, 1 ≤ k ∧ r = 2 ^ k) → h < 1 → build r h = .error (.configurationError h)) ∧
      ((∃ k, 1 ≤ k ∧ r = 2 ^ k) → 1 ≤ h → ∃ c : Config, build r h = .ok c ∧ c.r = r ∧ c.h = h ∧ c.p = 2 * h)) ∧
    (∀ h : Nat, 1 ≤ h → ∃ c : Config, build 2 h = .ok c ∧
      [0, 1, 2, 3, 4, 5, 6, 7].map (lutWord c) =
        [some h, some h, some 0, some 0, some 0, some h, some 0, some (2 * h)]) ∧
    ∀ (r h : Nat) (sine : List Nat),
      ((¬∃ k, 1 ≤ k ∧ r = 2 ^ k) → buildFrom r h sine = .error (.configurationError r)) ∧
        ((∃ k, 1 ≤ k ∧ r = 2 ^ k) → h < 1 → buildFrom r h sine = .error (.configurationError h)) ∧
        ((∃ k, 1 ≤ k ∧ r = 2 ^ k) → 1 ≤ h →
          ((sine.length = r ∧
              ∀ i, i < r → |((sine.getD i 0 : ℕ) : ℝ) - (h : ℝ) * (1 + Real.sin (2 * Real.pi * (i : ℝ) / (r : ℝ)))| < 1 / 2) →
            ∃ c : Config, buildFrom r h sine = .ok c ∧ build r h = .ok c ∧ c.sine = sine) ∧
          (¬(sine.length = r ∧
              ∀ i, i < r → |((sine.getD i 0 : ℕ) : ℝ) - (h : ℝ) * (1 + Real.sin (2 * Real.pi * (i : ℝ) / (r : ℝ)))| < 1 / 2) →
            buildFrom r h sine = .error .sineTableRefused))

/-! ## Invariants and whole-machine rules -/

/-- R20: the state after RESET, of every instance, holds the reset values, is legal, and has written nothing to the sink. -/
def Obligations.ResetStateIsSafe : Prop :=
  ∀ c : Config,
    (State.resetFor c).wave = 0 ∧ (State.resetFor c).ndiv = 1 ∧ (State.resetFor c).amp = 100 ∧
      (State.resetFor c).tidx = 0 ∧ (State.resetFor c).tcnt = 0 ∧ (State.resetFor c).duty = 0 ∧
      (State.resetFor c).sink = [] ∧ (State.resetFor c).Safe ∧ State.reset.Safe

/-- R19, R162: every step keeps the ranges of the registers and the sink's contract. -/
def Obligations.EveryStepKeepsTheStateSafe : Prop :=
  ∀ s t : State, s.Safe → step s = .next t → t.Safe

/-- R153: with a word presented, every step from a legal state is defined and yields a legal state; no step of any state
raises an exception. -/
def Obligations.NoStepRaisesAnException : Prop :=
  (∀ (s : State) (iw : StepWord) (rest : List StepWord), s.Legal → s.inputs = iw :: rest →
      ∃ t, step s = .next t ∧ t.Legal) ∧
    ∀ (s : State) (f : Fault), step s ≠ .fault f

/-- R19, R17: after an operation with a TICK that read `NDIV = n`, `TCNT < n`, and TCNT is 0 or one more than before. -/
def Obligations.CounterIsBelowTheNdivTheTickRead : Prop :=
  ∀ (i : Instr) (s t : State), ticks i = true → 1 ≤ s.ndiv.toNat → exec i s = .next t →
    t.tcnt.toNat < s.ndiv.toNat ∧ (t.tcnt.toNat = 0 ∨ t.tcnt.toNat = s.tcnt.toNat + 1)

/-- R125: only the port (and RESET) writes WAVE, NDIV and AMP, and the port writes nothing else: a write without a TICK leaves
TIDX, TCNT, DUTY and the sink alone, and the write part of a fused operation leaves them as the TICK leaves them. -/
def Obligations.PortAndStepperOwnTheirRegisters : Prop :=
  (∀ (i : Instr) (s t : State), writes i = false → i ≠ .reset → exec i s = .next t →
      t.wave = s.wave ∧ t.ndiv = s.ndiv ∧ t.amp = s.amp) ∧
    ∀ (i : Instr) (s : State), writes i = true →
      ∃ t u, exec i s = .next t ∧ (if ticks i then exec .tick s else exec .nop s) = .next u ∧
        t.tidx = u.tidx ∧ t.tcnt = u.tcnt ∧ t.duty = u.duty ∧ t.sink = u.sink ∧ t.dutyStb = u.dutyStb ∧
        (ticks i = false → t.tidx = s.tidx ∧ t.tcnt = s.tcnt ∧ t.duty = s.duty ∧ t.sink = s.sink)

/-- R94, R61: one sink write at a rollover, with the new DUTY, in a step with `duty_stb = 1`; none in any other step, RESET
included; never more than one. That RESET does not begin the trace anew is the model's reading of 'since reset' (log entry 6). -/
def Obligations.OneSinkWritePerRollover : Prop :=
  ∀ (i : Instr) (s t : State), exec i s = .next t →
    (t.dutyStb = true ↔ ticks i = true ∧ s.ndiv.toNat ≤ s.tcnt.toNat + 1) ∧
      (t.dutyStb = true → t.sink = s.sink ++ [t.duty]) ∧ (t.dutyStb = false → t.sink = s.sink)

/-- R33: no step changes the instance's parameters, so every LUT word reads as before. -/
def Obligations.TheTablesNeverChange : Prop :=
  ∀ s t : State, step s = .next t →
    t.cfg = s.cfg ∧ ∀ (w : WaveCode) (i : Nat), lutRead t.cfg w i = lutRead s.cfg w i

/-- R18: no operation reads DUTY, nor the strobe or the sink trace: changing them changes no other field of the next state
and nothing that is emitted. The strobe as a field is the model's (log entry 7); so are the trace as a field and that RESET
keeps it (log entry 6). -/
def Obligations.DutyIsNeverRead : Prop :=
  ∀ (i : Instr) (s : State) (d : Nat) (b : Bool) (l : List Nat),
    ∃ (t : State) (new : List Nat), exec i s = .next t ∧ t.sink = s.sink ++ new ∧
      exec i { s with duty := d, dutyStb := b, sink := l } =
        .next { t with duty := if i = .reset ∨ t.dutyStb = true then t.duty else d, sink := l ++ new }

/-- R16, R18, R180: as long as no RESET runs, the index counts the sink writes modulo R and DUTY is the last of them (0 before
the first); the state after RESET starts the count. So the first rollover after RESET reads index 1. -/
def Obligations.IndexCountsTheSinkWrites : Prop :=
  (∀ c : Config, (State.resetFor c).tidx = (State.resetFor c).sink.length % c.r ∧
      (State.resetFor c).duty = (State.resetFor c).sink.getLastD 0) ∧
    ∀ (i : Instr) (s t : State), i ≠ .reset → s.tidx = s.sink.length % s.cfg.r → s.duty = s.sink.getLastD 0 →
      exec i s = .next t → t.tidx = t.sink.length % t.cfg.r ∧ t.duty = t.sink.getLastD 0

/-- R93: while NDIV is not written, whatever else the words do, exactly one TICK in every N rolls over (with one sink write
each), and the index and the counter are back after `R·N` TICKs. -/
def Obligations.FrequencyDivision : Prop :=
  ∀ s : State, s.Legal → s.tcnt.toNat < s.ndiv.toNat → (∀ iw ∈ s.inputs, setsNdiv (decode iw) = false) →
    ∃ (t : State) (m : Nat), m = s.inputs.countP (fun iw => ticks (decode iw)) ∧
      core.run s.inputs.length s = .next t ∧ t.inputs = [] ∧ t.ndiv = s.ndiv ∧
      t.tcnt.toNat = (s.tcnt.toNat + m) % s.ndiv.toNat ∧
      t.tidx = (s.tidx + (s.tcnt.toNat + m) / s.ndiv.toNat) % s.cfg.r ∧
      t.sink.length = s.sink.length + (s.tcnt.toNat + m) / s.ndiv.toNat ∧
      (m = s.cfg.r * s.ndiv.toNat → t.tidx = s.tidx ∧ t.tcnt = s.tcnt ∧ t.sink.length = s.sink.length + s.cfg.r)

/-- R93, R113, R116: what a run of TICK words alone appends to the sink trace: the scaled entries of the active table, one
after another from the index after the current one. -/
def Obligations.SinkTraceOfATickRun : Prop :=
  ∀ s : State, s.Legal → s.tcnt.toNat < s.ndiv.toNat → (∀ iw ∈ s.inputs, decode iw = .tick) →
    ∃ t : State, core.run s.inputs.length s = .next t ∧ t.wave = s.wave ∧ t.ndiv = s.ndiv ∧ t.amp = s.amp ∧
      t.sink =
        s.sink ++
          (List.range ((s.tcnt.toNat + s.inputs.length) / s.ndiv.toNat)).map fun j =>
            clip s.cfg (scale (lutRead s.cfg s.wave ((s.tidx + 1 + j) % s.cfg.r)) s.amp.toNat)

/-- R116, R177: from a word with `rst = 1` on, the registers and what is appended to the sink trace depend on the instance
and the words alone, not on the state the words find. That the RESET keeps the trace from before it, so that the rest is
appended to it, is the model's reading of 'since reset' (log entry 6). -/
def Obligations.SinkTraceIsDeterminedByTheWords : Prop :=
  ∀ (s s' : State) (iw : StepWord) (rest : List StepWord) (k : Nat) (t : State),
    s.cfg = s'.cfg → s.inputs = iw :: rest → s'.inputs = iw :: rest → iw.getLsbD 21 = true →
      core.run (k + 1) s = .next t →
        ∃ (t' : State) (new : List Nat), core.run (k + 1) s' = .next t' ∧ t.sink = s.sink ++ new ∧
          t' = { t with sink := s'.sink ++ new }

/-! ## The trace text -/

/-- R60: what the three pseudo-operations expand to. -/
def Obligations.PseudoOperationsExpand : Prop :=
  (∀ k : Nat, expand (.ticks k) = some (List.replicate k .tick) ∧ expand (.nops k) = some (List.replicate k .nop)) ∧
    (∀ x yy : Nat, yy < 100 → 100 * x + yy ≤ 127 →
      expand (.wrAmpf x yy) = some [.wrAmp (BitVec.ofNat 7 (100 * x + yy))]) ∧
    expand (.wrAmpf 0 37) = some [.wrAmp 37] ∧ expand (.wrAmpf 1 0) = some [.wrAmp 100]

/-- R59: the line that spells an operation is read back as that operation, one step. -/
def Obligations.TraceTextRoundTrip : Prop := ∀ i : Instr, parseLine (render i) = some [i]
end

