-- ==== Sys2Proof/Laws/Bank.lean ====
section
/-! SUPPORT. The resolution is a positive even number, every instance has the one Sine table of its parameters, and what
`build` and `buildFrom` can answer. -/

namespace Sys2Proof.Machine

theorem r_pos (c : Config) : 0 < c.r := Nat.pow_pos (by decide)

/-- `R` is twice its half: it is a power of two and at least 2 (R2). -/
theorem r_eq_two_mul_half (c : Config) : c.r = 2 * (c.r / 2) := by
  have h : c.r = 2 * 2 ^ (c.k - 1) := by
    rw [Config.r, ← pow_succ']
    congr 1
    have := c.k_pos
    omega
  omega

theorem two_le_r (c : Config) : 2 ≤ c.r := by
  have := r_eq_two_mul_half c
  have := r_pos c
  omega

/-- R80 for every instance. -/
theorem sineExact (c : Config) : SineExact c := c.sine_exact.2

/-- R78: the Sine table of an instance is the one of its parameters. -/
theorem sine_eq_sineTable (c : Config) : c.sine = sineTable c.k c.h := eq_sineTable_of_exact c.h_pos c.sine_exact

/-- R75 for the Sine table. -/
theorem sineEntry_le (c : Config) (i : Nat) : sineEntry c i ≤ 2 * c.h := by
  rcases Nat.lt_or_ge i c.r with hi | hi
  · have h1 := abs_lt.mp (sineExact c i hi)
    have h2 := (idealSine_mem c.k c.h i).2
    have h3 : (sineEntry c i : ℝ) < (2 * c.h + 1 : Nat) := by push_cast; linarith
    have h4 : sineEntry c i < 2 * c.h + 1 := by exact_mod_cast h3
    omega
  · have : c.sine.length ≤ i := by rw [c.sine_exact.1]; exact hi
    rw [sineEntry, List.getD_eq_default _ _ this]
    omega

/-- What `build` answers, by its two checks. -/
theorem build_cases (r h : Nat) :
    (resolutionWellFormed r = false ∧ build r h = .error (.configurationError r)) ∨
      (resolutionWellFormed r = true ∧ halfWellFormed h = false ∧ build r h = .error (.configurationError h)) ∨
      (resolutionWellFormed r = true ∧ halfWellFormed h = true ∧
        ∃ c, build r h = .ok c ∧ c.k = Nat.log2 r ∧ c.h = h ∧ c.p = 2 * h) := by
  unfold build
  split
  · split
    · exact .inr (.inr ⟨‹_›, ‹_›, _, rfl, rfl, rfl, rfl⟩)
    · exact .inr (.inl ⟨‹_›, eq_false_of_ne_true ‹_›, rfl⟩)
  · exact .inl ⟨eq_false_of_ne_true ‹_›, rfl⟩

/-- The codes and the waveforms are in bijection (R13). -/
theorem waveformOf_codeOf (v : Waveform) : waveformOf (codeOf v) = v := by cases v <;> rfl

end Sys2Proof.Machine
end

