-- ==== Sys2Proof/Laws/Decode.lean ====
section
/-! SUPPORT. The bits of an assembled step input word. -/

namespace Sys2Proof

/-- Bit `i` of the concatenation of R52. -/
theorem wordOf_getLsbD (q : Ports) (i : Nat) :
    (wordOf q).getLsbD i =
      if i < 7 then q.amp.getLsbD i
      else if i < 15 then q.ndiv.getLsbD (i - 7)
      else if i < 17 then q.wave.getLsbD (i - 15)
      else if i < 19 then q.sel.getLsbD (i - 17)
      else if i = 19 then q.we
      else if i = 20 then q.tick
      else if i = 21 then q.rst
      else false := by
  rcases Nat.lt_or_ge i 22 with h | h
  · simp only [wordOf, BitVec.getLsbD_append, BitVec.getLsbD_ofBool]
    interval_cases i <;> simp
  · rw [BitVec.getLsbD_of_ge _ _ h]
    simp only [show ¬i < 7 by omega, show ¬i < 15 by omega, show ¬i < 17 by omega, show ¬i < 19 by omega,
      show i ≠ 19 by omega, show i ≠ 20 by omega, show i ≠ 21 by omega, if_false]

/-- A field of the word, bit by bit. -/
theorem getLsbD_of_field {iw : StepWord} {lo n : Nat} {v : BitVec n} (h : iw.extractLsb' lo n = v) {i : Nat} (hi : i < n) :
    iw.getLsbD (lo + i) = v.getLsbD i := by
  rw [← h]
  simp [hi]

/-- A word with bit 21 set is RESET whatever the rest (R55). -/
theorem operation_of_rst {q : Ports} (h : q.rst = true) : operation q = .reset := by simp [operation, h]

theorem operation_canonicalPorts (i : Instr) : operation (canonicalPorts i) = i := by cases i <;> rfl

end Sys2Proof
end

