-- ==== Sys2Proof/Laws/Operands.lean ====
section
/-! SUPPORT. What the port's clamps leave is legal (spec/10_state.md R14, R15). -/

namespace Sys2Proof.Machine

theorem clampN_legal (n : NdivWord) : 1 ≤ (clampN n).toNat ∧ (clampN n).toNat ≤ 200 := by
  simp only [clampN, clamp, BitVec.toNat_ofNat]
  omega

theorem clampA_legal (a : AmpWord) : 1 ≤ (clampA a).toNat ∧ (clampA a).toNat ≤ 100 := by
  simp only [clampA, clamp, BitVec.toNat_ofNat]
  omega

end Sys2Proof.Machine
end

