-- ==== Sys2Proof/Laws/State.lean ====
section
/-! SUPPORT. One lemma per field per shared operation, so that no proof unfolds a record update. -/

namespace Sys2Proof.Machine

@[simp] theorem lowerStrobe_cfg (s : State) : (lowerStrobe s).cfg = s.cfg := rfl
@[simp] theorem lowerStrobe_wave (s : State) : (lowerStrobe s).wave = s.wave := rfl
@[simp] theorem lowerStrobe_ndiv (s : State) : (lowerStrobe s).ndiv = s.ndiv := rfl
@[simp] theorem lowerStrobe_amp (s : State) : (lowerStrobe s).amp = s.amp := rfl
@[simp] theorem lowerStrobe_tidx (s : State) : (lowerStrobe s).tidx = s.tidx := rfl
@[simp] theorem lowerStrobe_tcnt (s : State) : (lowerStrobe s).tcnt = s.tcnt := rfl
@[simp] theorem lowerStrobe_duty (s : State) : (lowerStrobe s).duty = s.duty := rfl
@[simp] theorem lowerStrobe_dutyStb (s : State) : (lowerStrobe s).dutyStb = false := rfl
@[simp] theorem lowerStrobe_sink (s : State) : (lowerStrobe s).sink = s.sink := rfl
@[simp] theorem lowerStrobe_inputs (s : State) : (lowerStrobe s).inputs = s.inputs := rfl

@[simp] theorem writeWave_cfg (w : WaveCode) (s : State) : (writeWave w s).cfg = s.cfg := rfl
@[simp] theorem writeWave_wave (w : WaveCode) (s : State) : (writeWave w s).wave = w := rfl
@[simp] theorem writeWave_ndiv (w : WaveCode) (s : State) : (writeWave w s).ndiv = s.ndiv := rfl
@[simp] theorem writeWave_amp (w : WaveCode) (s : State) : (writeWave w s).amp = s.amp := rfl
@[simp] theorem writeWave_tidx (w : WaveCode) (s : State) : (writeWave w s).tidx = s.tidx := rfl
@[simp] theorem writeWave_tcnt (w : WaveCode) (s : State) : (writeWave w s).tcnt = s.tcnt := rfl
@[simp] theorem writeWave_duty (w : WaveCode) (s : State) : (writeWave w s).duty = s.duty := rfl
@[simp] theorem writeWave_dutyStb (w : WaveCode) (s : State) : (writeWave w s).dutyStb = s.dutyStb := rfl
@[simp] theorem writeWave_sink (w : WaveCode) (s : State) : (writeWave w s).sink = s.sink := rfl
@[simp] theorem writeWave_inputs (w : WaveCode) (s : State) : (writeWave w s).inputs = s.inputs := rfl

@[simp] theorem writeNdiv_cfg (n : NdivWord) (s : State) : (writeNdiv n s).cfg = s.cfg := rfl
@[simp] theorem writeNdiv_wave (n : NdivWord) (s : State) : (writeNdiv n s).wave = s.wave := rfl
@[simp] theorem writeNdiv_ndiv (n : NdivWord) (s : State) : (writeNdiv n s).ndiv = clampN n := rfl
@[simp] theorem writeNdiv_amp (n : NdivWord) (s : State) : (writeNdiv n s).amp = s.amp := rfl
@[simp] theorem writeNdiv_tidx (n : NdivWord) (s : State) : (writeNdiv n s).tidx = s.tidx := rfl
@[simp] theorem writeNdiv_tcnt (n : NdivWord) (s : State) : (writeNdiv n s).tcnt = s.tcnt := rfl
@[simp] theorem writeNdiv_duty (n : NdivWord) (s : State) : (writeNdiv n s).duty = s.duty := rfl
@[simp] theorem writeNdiv_dutyStb (n : NdivWord) (s : State) : (writeNdiv n s).dutyStb = s.dutyStb := rfl
@[simp] theorem writeNdiv_sink (n : NdivWord) (s : State) : (writeNdiv n s).sink = s.sink := rfl
@[simp] theorem writeNdiv_inputs (n : NdivWord) (s : State) : (writeNdiv n s).inputs = s.inputs := rfl

@[simp] theorem writeAmp_cfg (a : AmpWord) (s : State) : (writeAmp a s).cfg = s.cfg := rfl
@[simp] theorem writeAmp_wave (a : AmpWord) (s : State) : (writeAmp a s).wave = s.wave := rfl
@[simp] theorem writeAmp_ndiv (a : AmpWord) (s : State) : (writeAmp a s).ndiv = s.ndiv := rfl
@[simp] theorem writeAmp_amp (a : AmpWord) (s : State) : (writeAmp a s).amp = clampA a := rfl
@[simp] theorem writeAmp_tidx (a : AmpWord) (s : State) : (writeAmp a s).tidx = s.tidx := rfl
@[simp] theorem writeAmp_tcnt (a : AmpWord) (s : State) : (writeAmp a s).tcnt = s.tcnt := rfl
@[simp] theorem writeAmp_duty (a : AmpWord) (s : State) : (writeAmp a s).duty = s.duty := rfl
@[simp] theorem writeAmp_dutyStb (a : AmpWord) (s : State) : (writeAmp a s).dutyStb = s.dutyStb := rfl
@[simp] theorem writeAmp_sink (a : AmpWord) (s : State) : (writeAmp a s).sink = s.sink := rfl
@[simp] theorem writeAmp_inputs (a : AmpWord) (s : State) : (writeAmp a s).inputs = s.inputs := rfl

@[simp] theorem writeAll_cfg (w : WaveCode) (n : NdivWord) (a : AmpWord) (s : State) : (writeAll w n a s).cfg = s.cfg := rfl
@[simp] theorem writeAll_wave (w : WaveCode) (n : NdivWord) (a : AmpWord) (s : State) : (writeAll w n a s).wave = w := rfl
@[simp] theorem writeAll_ndiv (w : WaveCode) (n : NdivWord) (a : AmpWord) (s : State) : (writeAll w n a s).ndiv = clampN n := rfl
@[simp] theorem writeAll_amp (w : WaveCode) (n : NdivWord) (a : AmpWord) (s : State) : (writeAll w n a s).amp = clampA a := rfl
@[simp] theorem writeAll_tidx (w : WaveCode) (n : NdivWord) (a : AmpWord) (s : State) : (writeAll w n a s).tidx = s.tidx := rfl
@[simp] theorem writeAll_tcnt (w : WaveCode) (n : NdivWord) (a : AmpWord) (s : State) : (writeAll w n a s).tcnt = s.tcnt := rfl
@[simp] theorem writeAll_duty (w : WaveCode) (n : NdivWord) (a : AmpWord) (s : State) : (writeAll w n a s).duty = s.duty := rfl
@[simp] theorem writeAll_dutyStb (w : WaveCode) (n : NdivWord) (a : AmpWord) (s : State) : (writeAll w n a s).dutyStb = s.dutyStb := rfl
@[simp] theorem writeAll_sink (w : WaveCode) (n : NdivWord) (a : AmpWord) (s : State) : (writeAll w n a s).sink = s.sink := rfl
@[simp] theorem writeAll_inputs (w : WaveCode) (n : NdivWord) (a : AmpWord) (s : State) : (writeAll w n a s).inputs = s.inputs := rfl

@[simp] theorem sinkWrite_cfg (d : Nat) (s : State) : (sinkWrite d s).cfg = s.cfg := rfl
@[simp] theorem sinkWrite_wave (d : Nat) (s : State) : (sinkWrite d s).wave = s.wave := rfl
@[simp] theorem sinkWrite_ndiv (d : Nat) (s : State) : (sinkWrite d s).ndiv = s.ndiv := rfl
@[simp] theorem sinkWrite_amp (d : Nat) (s : State) : (sinkWrite d s).amp = s.amp := rfl
@[simp] theorem sinkWrite_tidx (d : Nat) (s : State) : (sinkWrite d s).tidx = s.tidx := rfl
@[simp] theorem sinkWrite_tcnt (d : Nat) (s : State) : (sinkWrite d s).tcnt = s.tcnt := rfl
@[simp] theorem sinkWrite_duty (d : Nat) (s : State) : (sinkWrite d s).duty = s.duty := rfl
@[simp] theorem sinkWrite_dutyStb (d : Nat) (s : State) : (sinkWrite d s).dutyStb = true := rfl
@[simp] theorem sinkWrite_sink (d : Nat) (s : State) : (sinkWrite d s).sink = s.sink ++ [d] := rfl
@[simp] theorem sinkWrite_inputs (d : Nat) (s : State) : (sinkWrite d s).inputs = s.inputs := rfl

@[simp] theorem hold_cfg (s : State) : (hold s).cfg = s.cfg := rfl
@[simp] theorem hold_wave (s : State) : (hold s).wave = s.wave := rfl
@[simp] theorem hold_ndiv (s : State) : (hold s).ndiv = s.ndiv := rfl
@[simp] theorem hold_amp (s : State) : (hold s).amp = s.amp := rfl
@[simp] theorem hold_tidx (s : State) : (hold s).tidx = s.tidx := rfl
@[simp] theorem hold_tcnt (s : State) : (hold s).tcnt = BitVec.ofNat 8 (nextCount s) := rfl
@[simp] theorem hold_duty (s : State) : (hold s).duty = s.duty := rfl
@[simp] theorem hold_dutyStb (s : State) : (hold s).dutyStb = false := rfl
@[simp] theorem hold_sink (s : State) : (hold s).sink = s.sink := rfl
@[simp] theorem hold_inputs (s : State) : (hold s).inputs = s.inputs := rfl

@[simp] theorem rollover_cfg (s : State) : (rollover s).cfg = s.cfg := rfl
@[simp] theorem rollover_wave (s : State) : (rollover s).wave = s.wave := rfl
@[simp] theorem rollover_ndiv (s : State) : (rollover s).ndiv = s.ndiv := rfl
@[simp] theorem rollover_amp (s : State) : (rollover s).amp = s.amp := rfl
@[simp] theorem rollover_tidx (s : State) : (rollover s).tidx = nextIndex s := rfl
@[simp] theorem rollover_tcnt (s : State) : (rollover s).tcnt = 0 := rfl
@[simp] theorem rollover_duty (s : State) : (rollover s).duty = nextDuty s := rfl
@[simp] theorem rollover_dutyStb (s : State) : (rollover s).dutyStb = true := rfl
@[simp] theorem rollover_sink (s : State) : (rollover s).sink = s.sink ++ [nextDuty s] := rfl
@[simp] theorem rollover_inputs (s : State) : (rollover s).inputs = s.inputs := rfl

@[simp] theorem resetRegisters_cfg (s : State) : (resetRegisters s).cfg = s.cfg := rfl
@[simp] theorem resetRegisters_wave (s : State) : (resetRegisters s).wave = 0 := rfl
@[simp] theorem resetRegisters_ndiv (s : State) : (resetRegisters s).ndiv = 1 := rfl
@[simp] theorem resetRegisters_amp (s : State) : (resetRegisters s).amp = 100 := rfl
@[simp] theorem resetRegisters_tidx (s : State) : (resetRegisters s).tidx = 0 := rfl
@[simp] theorem resetRegisters_tcnt (s : State) : (resetRegisters s).tcnt = 0 := rfl
@[simp] theorem resetRegisters_duty (s : State) : (resetRegisters s).duty = 0 := rfl
@[simp] theorem resetRegisters_dutyStb (s : State) : (resetRegisters s).dutyStb = false := rfl
@[simp] theorem resetRegisters_sink (s : State) : (resetRegisters s).sink = s.sink := rfl
@[simp] theorem resetRegisters_inputs (s : State) : (resetRegisters s).inputs = s.inputs := rfl

@[simp] theorem placeNext_cfg (s : State) (iw : StepWord) : (placeNext s iw).cfg = s.cfg := rfl
@[simp] theorem placeNext_wave (s : State) (iw : StepWord) : (placeNext s iw).wave = s.wave := rfl
@[simp] theorem placeNext_ndiv (s : State) (iw : StepWord) : (placeNext s iw).ndiv = s.ndiv := rfl
@[simp] theorem placeNext_amp (s : State) (iw : StepWord) : (placeNext s iw).amp = s.amp := rfl
@[simp] theorem placeNext_tidx (s : State) (iw : StepWord) : (placeNext s iw).tidx = s.tidx := rfl
@[simp] theorem placeNext_tcnt (s : State) (iw : StepWord) : (placeNext s iw).tcnt = s.tcnt := rfl
@[simp] theorem placeNext_duty (s : State) (iw : StepWord) : (placeNext s iw).duty = s.duty := rfl
@[simp] theorem placeNext_dutyStb (s : State) (iw : StepWord) : (placeNext s iw).dutyStb = s.dutyStb := rfl
@[simp] theorem placeNext_sink (s : State) (iw : StepWord) : (placeNext s iw).sink = s.sink := rfl
@[simp] theorem placeNext_inputs (s : State) (iw : StepWord) : (placeNext s iw).inputs = iw :: s.inputs.tail := rfl

end Sys2Proof.Machine
end

