-- ==== Sys2Proof/Laws/Ops.lean ====
section
/-! SUPPORT. What each shared operation can do, said once: TICK's two branches, the reset and the fetch. -/

namespace Sys2Proof.Machine

theorem rollsOver_iff (s : State) : rollsOver s = true ↔ s.ndiv.toNat ≤ s.tcnt.toNat + 1 := by
  unfold rollsOver nextCount
  rw [Bool.not_eq_true', decide_eq_false_iff_not, Nat.not_lt]

/-- TICK below the divider is the hold branch. -/
theorem tick_eq_hold {s : State} (h : s.tcnt.toNat + 1 < s.ndiv.toNat) : tick s = hold s := by
  simp [tick, rollsOver, nextCount, h]

/-- TICK at or above the divider is the rollover branch. -/
theorem tick_eq_rollover {s : State} (h : s.ndiv.toNat ≤ s.tcnt.toNat + 1) : tick s = rollover s := by
  simp [tick, (rollsOver_iff s).mpr h]

/-- Everything TICK can do. -/
theorem tick_cases (s : State) :
    (s.tcnt.toNat + 1 < s.ndiv.toNat ∧ tick s = hold s) ∨ (s.ndiv.toNat ≤ s.tcnt.toNat + 1 ∧ tick s = rollover s) := by
  rcases Nat.lt_or_ge (s.tcnt.toNat + 1) s.ndiv.toNat with h | h
  · exact .inl ⟨h, tick_eq_hold h⟩
  · exact .inr ⟨h, tick_eq_rollover h⟩

/-- The hold branch's counter does not wrap (R95). -/
theorem hold_tcnt_toNat {s : State} (h : s.tcnt.toNat + 1 < s.ndiv.toNat) : (hold s).tcnt.toNat = s.tcnt.toNat + 1 := by
  have := s.ndiv.isLt
  rw [hold_tcnt, nextCount, BitVec.toNat_ofNat]
  omega

/-- TICK writes no parameter and consumes no word. -/
theorem tick_keeps (s : State) :
    (tick s).cfg = s.cfg ∧ (tick s).wave = s.wave ∧ (tick s).ndiv = s.ndiv ∧ (tick s).amp = s.amp ∧
      (tick s).inputs = s.inputs := by
  rcases tick_cases s with ⟨_, e⟩ | ⟨_, e⟩ <;> simp [e]

theorem nextIndex_lt (s : State) : nextIndex s < s.cfg.r := Nat.mod_lt _ (r_pos s.cfg)

theorem nextDuty_le_period (s : State) : nextDuty s ≤ s.cfg.p := Nat.min_le_right _ _

theorem fetch_nil {s : State} (h : s.inputs = []) : fetch s = none := by simp [fetch, h]

theorem fetch_cons {s : State} {iw : StepWord} {rest : List StepWord} (h : s.inputs = iw :: rest) :
    fetch s = some (iw, { s with inputs := rest }) := by simp [fetch, h]

end Sys2Proof.Machine
end

