-- ==== Sys2Proof/Laws/PerInstr.lean ====
section
/-! SUPPORT. Per operation: its canonical word spells its own row of R55's table. -/

namespace Sys2Proof.Laws.CanonicalWord

/-- `encode i & mask == match` for the row of `i` (R55, R56). -/
def Statement (i : Instr) : Prop := encode i &&& (rowOf i).mask = (rowOf i).pattern

/-- Bit by bit, from the bits of the concatenation. -/
theorem of_bits {i : Instr}
    (h : ∀ b, b < 22 → ((encode i).getLsbD b && (rowOf i).mask.getLsbD b) = (rowOf i).pattern.getLsbD b) :
    encode i &&& (rowOf i).mask = (rowOf i).pattern := by
  apply BitVec.eq_of_getLsbD_eq
  intro b hb
  rw [BitVec.getLsbD_and]
  exact h b hb

theorem reset : Statement .reset := by unfold Statement; decide

theorem nop : Statement .nop := by unfold Statement; decide

theorem tick : Statement .tick := by unfold Statement; decide

theorem wrWave (w : WaveCode) : Statement (.wrWave w) := by unfold Statement; revert w; decide

theorem wrNdiv (n : NdivWord) : Statement (.wrNdiv n) := of_bits fun b hb => by
  simp only [encode, wordOf_getLsbD, canonicalPorts, writePorts, rowOf, selOf]
  interval_cases b <;> simp

theorem wrAmp (a : AmpWord) : Statement (.wrAmp a) := of_bits fun b hb => by
  simp only [encode, wordOf_getLsbD, canonicalPorts, writePorts, rowOf, selOf]
  interval_cases b <;> simp

theorem wrAll (w : WaveCode) (n : NdivWord) (a : AmpWord) : Statement (.wrAll w n a) := of_bits fun b hb => by
  simp only [encode, wordOf_getLsbD, canonicalPorts, writePorts, rowOf, selOf]
  interval_cases b <;> simp

theorem tWrWave (w : WaveCode) : Statement (.tWrWave w) := by unfold Statement; revert w; decide

theorem tWrNdiv (n : NdivWord) : Statement (.tWrNdiv n) := of_bits fun b hb => by
  simp only [encode, wordOf_getLsbD, canonicalPorts, writePorts, rowOf, selOf]
  interval_cases b <;> simp

theorem tWrAmp (a : AmpWord) : Statement (.tWrAmp a) := of_bits fun b hb => by
  simp only [encode, wordOf_getLsbD, canonicalPorts, writePorts, rowOf, selOf]
  interval_cases b <;> simp

theorem tWrAll (w : WaveCode) (n : NdivWord) (a : AmpWord) : Statement (.tWrAll w n a) := of_bits fun b hb => by
  simp only [encode, wordOf_getLsbD, canonicalPorts, writePorts, rowOf, selOf]
  interval_cases b <;> simp

end Sys2Proof.Laws.CanonicalWord
end

