-- ==== Sys2Proof/Laws/Step.lean ====
section
/-! SUPPORT. What a step and a run of steps can do, said once. -/

namespace Sys2Proof.Machine

/-- Every operation completes. -/
theorem exec_completes (i : Instr) (s : State) : ∃ t, exec i s = .next t := by
  cases i <;> exact ⟨_, rfl⟩

/-- A step that gives a next state consumed a word and ran the operation it spells. -/
theorem step_next_cases {s t : State} (h : step s = .next t) :
    ∃ iw rest, s.inputs = iw :: rest ∧ exec (decode iw) { s with inputs := rest } = .next t := by
  cases hi : s.inputs with
  | nil => simp [step, fetch_nil hi] at h
  | cons iw rest =>
    refine ⟨iw, rest, rfl, ?_⟩
    simpa [step, fetch_cons hi] using h

/-- One step of a run. -/
theorem run_succ {s t : State} {k : Nat} (h : step s = .next t) : core.run (k + 1) s = core.run k t := by
  have h' : core.step s = .next t := h
  simp only [Host.Core.run, h']

/-- A run stops where no word is presented. -/
theorem run_stops {s : State} {k : Nat} (h : s.inputs = []) : core.run (k + 1) s = .refused .awaitingInput := by
  have h₀ : step s = .refused .awaitingInput := by simp [step, fetch_nil h]
  have h' : core.step s = .refused .awaitingInput := h₀
  simp only [Host.Core.run, h']

end Sys2Proof.Machine
end

