-- ==== Sys2Proof/Tests/Slice0.lean ====
section
/-! SUPPORT. Tests of the model against the spec's own words, vectors and examples (spec/95_test_vectors.md unless another file is
named), and for every statement with hypotheses a theorem `witness_…` that shows them met, at the ends of their ranges. -/

namespace Sys2Proof.Tests

open Sys2Proof Sys2Proof.Machine

/-! ## Instances of the vectors -/

/-- `BUILD(8, 100)` (V-LUT-1). -/
def cfg8 : Config := Config.ofParameters 3 100 (by decide) (by decide)

/-- `BUILD(4, 3)` (V-LUT-5). -/
def cfg4 : Config := Config.ofParameters 2 3 (by decide) (by decide)

/-- `BUILD(2, 5)` (V-LUT-5), the smallest resolution. -/
def cfg2 : Config := Config.ofParameters 1 5 (by decide) (by decide)

/-- `BUILD(4, 1)`: `2H < R`. -/
def cfgSmall : Config := Config.ofParameters 2 1 (by decide) (by decide)

/-- `BUILD(128, H)`, the reference resolution (V-LUT-3, V-LUT-4, V-LUT-6). -/
def cfg128 (h : Nat) (hh : 1 ≤ h) : Config := Config.ofParameters 7 h (by decide) hh

/-- The state `(WAVE, NDIV, AMP, TIDX, TCNT, DUTY)` of an instance, in the notation of 95_test_vectors.md. -/
def at6 (c : Config) (w : WaveCode) (n : NdivWord) (a : AmpWord) (i : Nat) (k : TcntWord) (d : Nat) : State :=
  { State.resetFor c with wave := w, ndiv := n, amp := a, tidx := i, tcnt := k, duty := d }

/-- One step of one word: the registers after it, `duty_stb`, and the sink trace. -/
def after (s : State) (iw : StepWord) : Option (List Nat × Bool × List Nat) :=
  match step { s with inputs := [iw] } with
  | .next t => some ([t.wave.toNat, t.ndiv.toNat, t.amp.toNat, t.tidx, t.tcnt.toNat, t.duty], t.dutyStb, t.sink)
  | .fault _ => none
  | .refused _ => none

/-! ## Decode: words written bit by bit from 30_encoding.md R55 -/

theorem test_decode_reset : decode 0b1000000000000000000000 = .reset := by decide
theorem test_decode_reset_ones : decode 0b1111111111111111111111 = .reset := by decide
theorem test_decode_nop : decode 0b0001111111111111111111 = .nop := by decide
theorem test_decode_tick : decode 0b0101111111111111111111 = .tick := by decide
theorem test_decode_wrWave : decode 0b0010011000000000000000 = .wrWave 3 := by decide
theorem test_decode_wrNdiv : decode 0b0010100110010000000000 = .wrNdiv 200 := by decide
theorem test_decode_wrAmp : decode 0b0011000000000000100101 = .wrAmp 37 := by decide
theorem test_decode_wrAll : decode 0b0011110000001010110010 = .wrAll 2 5 50 := by decide
theorem test_decode_tWrWave : decode 0b0110001000000000000000 = .tWrWave 1 := by decide
theorem test_decode_tWrNdiv : decode 0b0110110000000010000000 = .tWrNdiv 1 := by decide
theorem test_decode_tWrAmp : decode 0b0111000000000000000001 = .tWrAmp 1 := by decide
theorem test_decode_tWrAll : decode 0b0111111000000100110010 = .tWrAll 3 2 50 := by decide

/-- V-DEC: words with ignored bits set. -/
theorem test_decode_ignored :
    [0x2A5A5A, 0x000001, 0x13C0DE, 0x08FFFF, 0x0BFFFF, 0x0DFFFF, 0x19FFFF, 0x1B0080, 0x1DFF80].map decode =
      [.reset, .nop, .tick, .wrWave 1, .wrNdiv 255, .wrAmp 127, .tWrWave 3, .tWrNdiv 1, .tWrAmp 0] := by decide

/-- 30_encoding.md section 3: assembled words. -/
theorem test_encode :
    [.wrNdiv 200, .wrAmp 37, .wrWave 3, .wrAll 2 5 50, .tWrAmp 1, .tick, .reset, .nop].map encode =
      [0x0A6400, 0x0C0025, 0x098000, 0x0F02B2, 0x1C0001, 0x100000, 0x200000, 0x000000] := by decide

theorem test_decodeTableWord : decodeTableWord 24 0x1F8132 = some (.tWrAll 3 2 50) := by decide
theorem test_decodeTableWord_too_wide : decodeTableWord 24 0x400000 = none := by decide

/-! ## Well-formedness: each check refuses an ill-formed term -/

theorem test_wellFormed_accepts : Instr.wellFormed (.wrAll 3 255 127) = true := by decide
theorem test_resolution_refuses : [100, 0, 1, 3].map resolutionWellFormed = [false, false, false, false] := by decide
theorem test_resolution_accepts : [2, 4, 128, 1024].map resolutionWellFormed = [true, true, true, true] := by decide
theorem test_half_refuses : halfWellFormed 0 = false ∧ halfWellFormed 1 = true := by decide
theorem test_sineTable_refuses_length : sineTableWellFormed 8 100 [100, 171] = false := by decide
theorem test_sineTable_refuses_value : sineTableWellFormed 2 5 [5, 11] = false := by decide
theorem test_sineTable_refuses_no_sine : sineTableWellFormed 2 5 [0, 10] = false := by decide

/-! ## BUILD (V-LUT-7) and the tables (V-LUT-1 to V-LUT-6) -/

theorem test_build_refuses_100 : build 100 127 = .error (.configurationError 100) := by rfl
theorem test_build_refuses_zero_one :
    build 0 127 = .error (.configurationError 0) ∧ build 1 127 = .error (.configurationError 1) := ⟨rfl, rfl⟩
theorem test_build_refuses_half : build 128 0 = .error (.configurationError 0) := by rfl
theorem test_build_accepts :
    build 8 100 = .ok cfg8 ∧ build 2 5 = .ok cfg2 ∧ build 128 127 = .ok (cfg128 127 (by decide)) := ⟨rfl, rfl, rfl⟩
theorem test_buildFrom_refuses_length : buildFrom 8 100 [100] = .error .sineTableRefused := by decide
/-- In range, but no sine: R70's corner case at `R = 2` is `[H, H]`. -/
theorem test_buildFrom_refuses_no_sine : buildFrom 2 5 [0, 10] = .error .sineTableRefused := by decide
theorem test_buildFrom_accepts : buildFrom 8 100 [100, 171, 200, 171, 100, 29, 0, 29] = .ok cfg8 := by decide

/-- V-LUT-3. -/
theorem test_sineTable_128_127 :
    sineTable 7 127 =
      [
        127, 133, 139, 146, 152, 158, 164, 170, 176, 181, 187, 192, 198, 203, 208, 212,
        217, 221, 225, 229, 233, 236, 239, 242, 244, 247, 249, 250, 252, 253, 253, 254,
        254, 254, 253, 253, 252, 250, 249, 247, 244, 242, 239, 236, 233, 229, 225, 221,
        217, 212, 208, 203, 198, 192, 187, 181, 176, 170, 164, 158, 152, 146, 139, 133,
        127, 121, 115, 108, 102, 96, 90, 84, 78, 73, 67, 62, 56, 51, 46, 42,
        37, 33, 29, 25, 21, 18, 15, 12, 10, 7, 5, 4, 2, 1, 1, 0,
        0, 0, 1, 1, 2, 4, 5, 7, 10, 12, 15, 18, 21, 25, 29, 33,
        37, 42, 46, 51, 56, 62, 67, 73, 78, 84, 90, 96, 102, 108, 115, 121] := by decide
/-- V-LUT-6. -/
theorem test_sineTable_128_10 :
    sineTable 7 10 =
      [
        10, 10, 11, 11, 12, 12, 13, 13, 14, 14, 15, 15, 16, 16, 16, 17,
        17, 17, 18, 18, 18, 19, 19, 19, 19, 19, 20, 20, 20, 20, 20, 20,
        20, 20, 20, 20, 20, 20, 20, 19, 19, 19, 19, 19, 18, 18, 18, 17,
        17, 17, 16, 16, 16, 15, 15, 14, 14, 13, 13, 12, 12, 11, 11, 10,
        10, 10, 9, 9, 8, 8, 7, 7, 6, 6, 5, 5, 4, 4, 4, 3,
        3, 3, 2, 2, 2, 1, 1, 1, 1, 1, 0, 0, 0, 0, 0, 0,
        0, 0, 0, 0, 0, 0, 0, 1, 1, 1, 1, 1, 2, 2, 2, 3,
        3, 3, 4, 4, 4, 5, 5, 6, 6, 7, 7, 8, 8, 9, 9, 10] := by decide
/-- V-LUT-6. -/
theorem test_sineTable_128_11 :
    sineTable 7 11 =
      [
        11, 12, 12, 13, 13, 14, 14, 15, 15, 16, 16, 17, 17, 18, 18, 18,
        19, 19, 20, 20, 20, 20, 21, 21, 21, 21, 22, 22, 22, 22, 22, 22,
        22, 22, 22, 22, 22, 22, 22, 21, 21, 21, 21, 20, 20, 20, 20, 19,
        19, 18, 18, 18, 17, 17, 16, 16, 15, 15, 14, 14, 13, 13, 12, 12,
        11, 10, 10, 9, 9, 8, 8, 7, 7, 6, 6, 5, 5, 4, 4, 4,
        3, 3, 2, 2, 2, 2, 1, 1, 1, 1, 0, 0, 0, 0, 0, 0,
        0, 0, 0, 0, 0, 0, 0, 1, 1, 1, 1, 2, 2, 2, 2, 3,
        3, 4, 4, 4, 5, 5, 6, 6, 7, 7, 8, 8, 9, 9, 10, 10] := by decide
/-- V-LUT-4, in its run-length form. -/
theorem test_sineTable_128_1 :
    sineTable 7 1 =
      List.replicate 11 1 ++ List.replicate 43 2 ++ List.replicate 21 1 ++ List.replicate 43 0 ++ List.replicate 10 1 := by
  decide
/-- V-LUT-2. -/
theorem test_sineTable_16_8 : sineTable 4 8 = [8, 11, 14, 15, 16, 15, 14, 11, 8, 5, 2, 1, 0, 1, 2, 5] := by decide

/-- The four tables of an instance. -/
def tables (c : Config) : List (List Nat) := [0, 1, 2, 3].map fun w => (List.range c.r).map (lutRead c w)

theorem test_tables_8_100 :
    tables cfg8 =
      [[100, 171, 200, 171, 100, 29, 0, 29], [0, 200, 200, 200, 0, 0, 0, 0], [0, 25, 50, 75, 100, 125, 150, 175],
       [0, 50, 100, 150, 200, 150, 100, 50]] := by decide
theorem test_tables_4_3 : tables cfg4 = [[3, 6, 3, 0], [0, 6, 0, 0], [0, 1, 3, 4], [0, 3, 6, 3]] := by decide
theorem test_tables_2_5 : tables cfg2 = [[5, 5], [0, 0], [0, 5], [0, 10]] := by decide
/-- V-LUT-6: the edges of Square at `H = 10` and `H = 11`. -/
theorem test_square_edge :
    [0, 1, 2, 62, 63, 64].map (squareEntry (cfg128 10 (by decide))) = [0, 0, 20, 20, 0, 0] ∧
      [0, 1, 2, 62, 63, 64].map (squareEntry (cfg128 11 (by decide))) = [0, 22, 22, 22, 22, 0] := by decide
theorem test_lutWord : [7, 8, 31, 32].map (lutWord cfg8) = [some 29, some 0, some 50, none] := by decide
theorem test_width : [cfg8.w, cfg4.w, cfg2.w] = [8, 3, 4] := by decide

/-! ## Scale, Clip and the clamps (V-SCALE, V-CLIP, V-CLAMP) -/

theorem test_scale :
    [(0, 1), (1, 100), (254, 99), (171, 50), (29, 50), (25, 2), (254, 25), (253, 25), (2, 24), (1, 49), (127, 33), (49, 1),
      (50, 1), (149, 1), (150, 1)].map (fun q => scale q.1 q.2) =
      [0, 1, 251, 86, 15, 1, 64, 63, 0, 0, 42, 0, 1, 1, 2] := by decide
theorem test_clip : [0, 200].map (clip cfg8) = [0, 200] := by decide
theorem test_clip_smaller_period :
    [149, 150, 171, 200].map (clip (withPeriod cfg8 150 (by decide))) = [149, 150, 150, 150] := by decide
theorem test_clampN : [0, 1, 2, 128, 199, 200, 201, 255].map clampN = [1, 1, 2, 128, 199, 200, 200, 200] := by decide
theorem test_clampA : [0, 1, 2, 64, 99, 100, 101, 127].map clampA = [1, 1, 2, 64, 99, 100, 100, 100] := by decide

/-! ## Single steps (V-TICK, V-WR, V-RST) -/

theorem test_tick_wrap : after (at6 cfg8 0 1 100 7 0 29) 0x100000 = some ([0, 1, 100, 0, 0, 100], true, [100]) := by decide
theorem test_tick_lowered_ndiv :
    after (at6 cfg8 0 1 100 1 2 171) 0x100000 = some ([0, 1, 100, 2, 0, 200], true, [200]) := by decide
theorem test_tick_hold_largest :
    after (at6 cfg8 0 200 100 0 198 0) 0x100000 = some ([0, 200, 100, 0, 199, 0], false, []) := by decide
theorem test_tick_tie : after (at6 cfg8 2 1 50 2 0 0) 0x100000 = some ([2, 1, 50, 3, 0, 38], true, [38]) := by decide
theorem test_tick_zero_is_written :
    after (at6 cfg8 1 1 100 3 0 200) 0x100000 = some ([1, 1, 100, 4, 0, 0], true, [0]) := by decide
theorem test_nop : after (at6 cfg8 2 7 33 5 4 125) 0x000000 = some ([2, 7, 33, 5, 4, 125], false, []) := by decide
theorem test_wrWave : after (at6 cfg8 0 7 33 5 4 29) 0x098000 = some ([3, 7, 33, 5, 4, 29], false, []) := by decide
theorem test_wrNdiv : after (at6 cfg8 0 7 33 5 4 29) 0x0A0100 = some ([0, 2, 33, 5, 4, 29], false, []) := by decide
theorem test_wrAmp : after (at6 cfg8 0 7 33 5 4 29) 0x0C0064 = some ([0, 7, 100, 5, 4, 29], false, []) := by decide
theorem test_wrAll_clamps : after (at6 cfg8 0 7 33 5 4 29) 0x0E8000 = some ([1, 1, 1, 5, 4, 29], false, []) := by decide
theorem test_tWrWave_old_table :
    after (at6 cfg8 0 1 100 0 0 0) 0x188000 = some ([1, 1, 100, 1, 0, 171], true, [171]) := by decide
theorem test_tWrNdiv_old_ndiv : after (at6 cfg8 0 3 100 0 1 0) 0x1A0080 = some ([0, 1, 100, 0, 2, 0], false, []) := by decide
theorem test_tWrAmp_old_amp :
    after (at6 cfg8 0 1 100 0 0 0) 0x1C0032 = some ([0, 1, 50, 1, 0, 171], true, [171]) := by decide
theorem test_tWrAll : after (at6 cfg8 0 1 100 0 0 0) 0x1F8132 = some ([3, 2, 50, 1, 0, 171], true, [171]) := by decide
theorem test_tWrAll_holds : after (at6 cfg8 0 3 100 0 1 0) 0x1E8081 = some ([1, 1, 1, 0, 2, 0], false, []) := by decide
theorem test_reset : after (at6 cfg8 3 200 1 7 199 2) 0x200000 = some ([0, 1, 100, 0, 0, 0], false, []) := by decide
theorem test_reset_dominates : after (at6 cfg8 3 200 1 7 199 2) 0x3FFFFF = some ([0, 1, 100, 0, 0, 0], false, []) := by decide

/-- The word placed by withFetchWord is the one the very next step runs, from the state after reset. -/
theorem test_withFetchWord :
    step (State.reset.withFetchWord 24 0x0C0025) = .next { State.reset with amp := 37, dutyStb := false } := by rfl
theorem test_awaitingInput : step State.reset = .refused .awaitingInput := by rfl

/-! ## The trace text (30_encoding.md R59, R60) -/

theorem test_text_names :
    parseLine "WR_WAVE TRI ; to Triangle".toList = some [.wrWave 3] := by decide
theorem test_text_hex : parseLine "T_WR_ALL 1, 0x2,50".toList = some [.tWrAll 1 2 50] := by decide
theorem test_text_ampf : parseLine "WR_AMPF 0.37".toList = some [.wrAmp 37] := by decide
theorem test_text_refuses : parseLine "WR_AMP 128".toList = none := by decide
theorem test_text_lines : parseText "RESET\nTICKS 2\n; end".toList = some [.reset, .tick, .tick] := by decide

/-- A property of every member of a list, by running down the list. -/
theorem forall_mem_of_all {α : Type} {q : α → Prop} [DecidablePred q] {l : List α}
    (h : (l.all fun x => decide (q x)) = true) : ∀ x ∈ l, q x := by
  simpa using h

/-! ## Witnesses of hypotheses, one theorem per statement, each clause at its ends -/

/-- Two WR_AMP words that differ in every ignored bit. -/
theorem witness_IgnoredBitsHaveNoEffect :
    (0x0C0025 : StepWord) &&& ~~~(rowOf (decode 0x0C0025)).ignored = 0x0DFFA5 &&& ~~~(rowOf (decode 0x0C0025)).ignored ∧
      (0x0C0025 : StepWord) ≠ 0x0DFFA5 := by decide

theorem witness_ResetDominatesItsWord :
    (0x200000 : StepWord).getLsbD 21 = true ∧ (0x3FFFFF : StepWord).getLsbD 21 = true := by decide

/-- For each encoding clause, the least and the greatest word of its pattern. -/
theorem witness_encodings :
    (0x000000 : StepWord).extractLsb' 19 3 = 0b000 ∧ (0x07FFFF : StepWord).extractLsb' 19 3 = 0b000 ∧
      (0x100000 : StepWord).extractLsb' 19 3 = 0b010 ∧ (0x17FFFF : StepWord).extractLsb' 19 3 = 0b010 ∧
      (0x080000 : StepWord).extractLsb' 17 5 = 0b00100 ∧ (0x09FFFF : StepWord).extractLsb' 17 5 = 0b00100 ∧
      (0x0A0000 : StepWord).extractLsb' 17 5 = 0b00101 ∧ (0x0BFFFF : StepWord).extractLsb' 17 5 = 0b00101 ∧
      (0x0C0000 : StepWord).extractLsb' 17 5 = 0b00110 ∧ (0x0DFFFF : StepWord).extractLsb' 17 5 = 0b00110 ∧
      (0x0E0000 : StepWord).extractLsb' 17 5 = 0b00111 ∧ (0x0FFFFF : StepWord).extractLsb' 17 5 = 0b00111 ∧
      (0x180000 : StepWord).extractLsb' 17 5 = 0b01100 ∧ (0x19FFFF : StepWord).extractLsb' 17 5 = 0b01100 ∧
      (0x1A0000 : StepWord).extractLsb' 17 5 = 0b01101 ∧ (0x1BFFFF : StepWord).extractLsb' 17 5 = 0b01101 ∧
      (0x1C0000 : StepWord).extractLsb' 17 5 = 0b01110 ∧ (0x1DFFFF : StepWord).extractLsb' 17 5 = 0b01110 ∧
      (0x1E0000 : StepWord).extractLsb' 17 5 = 0b01111 ∧ (0x1FFFFF : StepWord).extractLsb' 17 5 = 0b01111 := by decide

/-- The last count that holds at `NDIV = 200`, and a hold at the smallest divider that can hold. -/
theorem witness_TickHoldChangesOnlyTheCounter :
    (at6 cfg8 0 200 100 0 198 0).tcnt.toNat + 1 < (at6 cfg8 0 200 100 0 198 0).ndiv.toNat ∧
      (at6 cfg8 0 2 100 0 0 0).tcnt.toNat + 1 < (at6 cfg8 0 2 100 0 0 0).ndiv.toNat := by decide

/-- Rollovers at `c = NDIV`, at `c > NDIV`, and at the index wrap; and a TICK that gives a next state. -/
theorem witness_TickRolloverAdvancesTheIndexByOne :
    (at6 cfg8 0 200 100 7 199 0).ndiv.toNat ≤ (at6 cfg8 0 200 100 7 199 0).tcnt.toNat + 1 ∧
      (at6 cfg8 0 1 100 1 2 171).ndiv.toNat ≤ (at6 cfg8 0 1 100 1 2 171).tcnt.toNat + 1 ∧
      exec .tick (at6 cfg8 0 1 100 7 0 29) = .next (rollover (at6 cfg8 0 1 100 7 0 29)) := by
  refine ⟨by decide, by decide, rfl⟩

/-- The four canonical write words. -/
theorem witness_FusedWordIsATickWordThenTheWriteWord :
    ∀ iw ∈ ([0x088000, 0x0A0080, 0x0C0032, 0x0F8132] : List StepWord),
      iw.getLsbD 21 = false ∧ iw.getLsbD 20 = false ∧ iw.getLsbD 19 = true :=
  forall_mem_of_all (by decide)

/-- Clause (a) at `n = TCNT + 1` and after a clamp, clause (b) at `n = TCNT + 2`, clause (c) at the last
count that holds, clause (d) at a rollover. -/
theorem witness_ParametersAreSampledAtEveryTick :
    min (max (3 : NdivWord).toNat 1) 200 ≤ (at6 cfg8 0 7 100 0 2 0).tcnt.toNat + 1 ∧
      min (max (255 : NdivWord).toNat 1) 200 ≤ (at6 cfg8 0 200 100 0 199 0).tcnt.toNat + 1 ∧
      (at6 cfg8 0 7 100 0 2 0).tcnt.toNat + 1 < min (max (4 : NdivWord).toNat 1) 200 ∧
      (at6 cfg8 0 200 100 0 198 0).tcnt.toNat + 1 < (at6 cfg8 0 200 100 0 198 0).ndiv.toNat ∧
      (at6 cfg8 0 1 100 0 0 0).ndiv.toNat ≤ (at6 cfg8 0 1 100 0 0 0).tcnt.toNat + 1 := by decide

theorem witness_ClampNClampsToOneAndTwoHundred :
    (0 : NdivWord).toNat = 0 ∧ 1 ≤ (1 : NdivWord).toNat ∧ (200 : NdivWord).toNat ≤ 200 ∧ 201 ≤ (201 : NdivWord).toNat ∧
      201 ≤ (255 : NdivWord).toNat := by decide

theorem witness_ClampAClampsToOneAndOneHundred :
    (0 : AmpWord).toNat = 0 ∧ 1 ≤ (1 : AmpWord).toNat ∧ (100 : AmpWord).toNat ≤ 100 ∧ 101 ≤ (101 : AmpWord).toNat ∧
      101 ≤ (127 : AmpWord).toNat := by decide

theorem witness_ScaleIsTheRoundedProduct : 200 ≤ 2 * cfg8.h ∧ 0 ≤ 2 * cfg8.h ∧ 100 ≤ 100 := by decide

theorem witness_ScaleProperties :
    200 ≤ 2 * cfg8.h ∧ (49 < 50) ∧ 2 * 127 % 4 = 2 ∧ (99 ≤ 100) := by decide

theorem witness_ClipIsTheIdentityForTheSpecPeriod :
    cfg8.p = 2 * cfg8.h ∧ 0 < cfg8.r ∧ 7 < cfg8.r ∧ 100 ≤ 100 := by decide

/-- The smallest resolution, and `4 ≤ R` at its end. -/
theorem witness_SineEntriesRoundTheRealSine : 1 < cfg2.r ∧ 4 ≤ cfg4.r ∧ 0 < cfg4.r ∧ 3 < cfg4.r := by decide

theorem witness_SquareComparesTheRoundedSine : cfg4.r / 2 ≤ 2 ∧ 2 < cfg4.r ∧ cfg4.r / 2 ≤ 3 ∧ 3 < cfg4.r := by decide

theorem witness_SawtoothIsTheFlooredRamp : 7 < cfg8.r ∧ 2 * cfgSmall.h < cfgSmall.r := by decide

theorem witness_TriangleIsTheFlooredSymmetricRamp :
    0 < cfg8.r ∧ 7 < cfg8.r ∧ 0 < 1 ∧ 1 < cfg8.r ∧ cfg8.r ∣ 4 * cfg8.h := by decide

theorem witness_TableEntriesAreInRange : 0 < cfg8.r ∧ 7 < cfg8.r := by decide

theorem witness_SineTableSymmetries : 2 ≤ cfg4.r / 2 ∧ 0 < cfg4.r / 2 ∧ 1 < cfg4.r / 2 ∧ 3 < cfg4.r := by decide

/-- The clauses at `(4, 3)`, where `3·sin(π/2) > 1/2`, and at `R = 128` with `H` 10, 1 and 11. -/
theorem witness_SquareClosedForm :
    (cfg4.h : ℝ) * Real.sin (2 * Real.pi / (cfg4.r : ℝ)) > 1 / 2 ∧ 0 < cfg4.r ∧ 3 < cfg4.r ∧
      ((cfg128 10 (by decide)).r = 128 ∧ (cfg128 10 (by decide)).h = 10) ∧
      ((cfg128 1 (by decide)).r = 128 ∧ (cfg128 1 (by decide)).h = 1) ∧ 11 ≤ (cfg128 11 (by decide)).h := by
  refine ⟨?_, by decide, by decide, by decide, by decide, by decide⟩
  change ((3 : ℕ) : ℝ) * Real.sin (2 * Real.pi / ((4 : ℕ) : ℝ)) > 1 / 2
  rw [show 2 * Real.pi / ((4 : ℕ) : ℝ) = Real.pi / 2 by push_cast; ring, Real.sin_pi_div_two]
  norm_num

/-- The smallest parameters, and two instances with one `K` and one `H` that differ in the period. -/
theorem witness_SineTableExistsAndIsUnique :
    (1 ≤ 1 ∧ 1 ≤ 1) ∧ 3 < cfg4.r ∧ cfg4.k = (withPeriod cfg4 5 (by decide)).k ∧ cfg4.h = (withPeriod cfg4 5 (by decide)).h :=
  ⟨by decide, by decide, rfl, rfl⟩

theorem witness_LutSpaceIsFourTablesInOrder : 0 < cfg8.r ∧ 7 < cfg8.r ∧ 31 < 4 * cfg8.r ∧ 4 * cfg8.r ≤ 32 ∧
    lutWord cfg8 31 = some 50 := by decide

/-- `R = 100` and `R = 1` are no legal resolution; `R = 2` is; `H = 0` is refused, `H = 5` accepted;
a supplied table with R80's property, and one in range without it. -/
theorem witness_BuildRefusesExactlyTheIllegalParameters :
    (¬∃ k, 1 ≤ k ∧ 100 = 2 ^ k) ∧ (¬∃ k, 1 ≤ k ∧ 1 = 2 ^ k) ∧ (∃ k, 1 ≤ k ∧ 2 = 2 ^ k) ∧ (0 : Nat) < 1 ∧
      1 ≤ 5 ∧ SineTableExact 1 5 [5, 5] ∧ ¬SineTableExact 1 5 [0, 10] := by
  refine ⟨?_, ?_, ⟨1, by decide, by decide⟩, by decide, by decide, ?_, fun h => ?_⟩
  · rintro ⟨k, -, hk⟩
    rcases Nat.lt_or_ge k 7 with h | h
    · interval_cases k <;> omega
    · have : 2 ^ 7 ≤ 2 ^ k := Nat.pow_le_pow_right (by decide) h
      omega
  · rintro ⟨k, h, hk⟩
    have : 2 ^ 1 ≤ 2 ^ k := Nat.pow_le_pow_right (by decide) h
    omega
  · exact (show sineTable 1 5 = [5, 5] by decide) ▸ sineTable_exact (by decide)
  · exact absurd (eq_sineTable_of_exact (by decide) h) (by decide)

/-- A safe state at the ends of its ranges, with a sink trace at its bound, that steps. -/
theorem witness_EveryStepKeepsTheStateSafe :
    { at6 cfg8 3 200 100 7 199 200 with sink := [0, 200], inputs := [0x100000] }.Safe ∧
      { at6 cfg8 0 1 1 0 0 0 with inputs := [0x100000] }.Safe ∧
      ∃ t, step { at6 cfg8 3 200 100 7 199 200 with sink := [0, 200], inputs := [0x100000] } = .next t :=
  ⟨by decide, by decide, _, rfl⟩

theorem witness_NoStepRaisesAnException :
    { at6 cfg8 3 200 100 7 199 200 with inputs := [0x3FFFFF] }.Legal ∧
      { at6 cfg8 3 200 100 7 199 200 with inputs := [0x3FFFFF] }.inputs = 0x3FFFFF :: [] := by decide

theorem witness_CounterIsBelowTheNdivTheTickRead :
    ticks (.tWrNdiv 1) = true ∧ 1 ≤ (at6 cfg8 0 3 100 0 1 0).ndiv.toNat ∧
      ∃ t, exec (.tWrNdiv 1) (at6 cfg8 0 3 100 0 1 0) = .next t :=
  ⟨by decide, by decide, _, rfl⟩

theorem witness_PortAndStepperOwnTheirRegisters :
    writes .tick = false ∧ Instr.tick ≠ .reset ∧ (∃ t, exec .tick (at6 cfg8 0 1 100 0 0 0) = .next t) ∧
      writes (.wrAmp 5) = true ∧ ticks (.wrAmp 5) = false ∧ writes (.tWrAmp 5) = true ∧ ticks (.tWrAmp 5) = true :=
  ⟨by decide, by decide, ⟨_, rfl⟩, by decide, by decide, by decide, by decide⟩

/-- A step that strobes and one that does not. -/
theorem witness_OneSinkWritePerRollover :
    (∃ t, exec .tick (at6 cfg8 0 1 100 0 0 0) = .next t ∧ t.dutyStb = true) ∧
      ∃ t, exec .tick (at6 cfg8 0 3 100 0 0 0) = .next t ∧ t.dutyStb = false :=
  ⟨⟨_, rfl, by decide⟩, _, rfl, by decide⟩

theorem witness_TheTablesNeverChange :
    ∃ t, step { at6 cfg8 0 1 100 0 0 0 with inputs := [0x200000] } = .next t := ⟨_, rfl⟩

/-- Before the first sink write, and after one. -/
theorem witness_IndexCountsTheSinkWrites :
    Instr.tick ≠ .reset ∧ (State.resetFor cfg8).tidx = (State.resetFor cfg8).sink.length % cfg8.r ∧
      { at6 cfg8 0 1 100 1 0 171 with sink := [171] }.tidx =
        { at6 cfg8 0 1 100 1 0 171 with sink := [171] }.sink.length % cfg8.r ∧
      { at6 cfg8 0 1 100 1 0 171 with sink := [171] }.duty =
        { at6 cfg8 0 1 100 1 0 171 with sink := [171] }.sink.getLastD 0 ∧
      ∃ t, exec .tick { at6 cfg8 0 1 100 1 0 171 with sink := [171] } = .next t :=
  ⟨by decide, by decide, by decide, by decide, _, rfl⟩

/-- `R·NDIV = 8` TICK words from the state after reset, with a NOP and a WR_AMP among them; and the largest counter. -/
theorem witness_FrequencyDivision :
    (State.resetFor cfg8).Legal ∧ (State.resetFor cfg8).tcnt.toNat < (State.resetFor cfg8).ndiv.toNat ∧
      (∀ iw ∈ ([0, 0x0C0032] ++ List.replicate 8 0x100000 : List StepWord), setsNdiv (decode iw) = false) ∧
      ([0, 0x0C0032] ++ List.replicate 8 0x100000 : List StepWord).countP (fun iw => ticks (decode iw)) =
        cfg8.r * (State.resetFor cfg8).ndiv.toNat ∧
      (at6 cfg8 0 200 100 0 199 0).tcnt.toNat < (at6 cfg8 0 200 100 0 199 0).ndiv.toNat :=
  ⟨by decide, by decide, forall_mem_of_all (by decide), by decide, by decide⟩

theorem witness_SinkTraceOfATickRun :
    (State.resetFor cfg8).Legal ∧ (State.resetFor cfg8).tcnt.toNat < (State.resetFor cfg8).ndiv.toNat ∧
      ∀ iw ∈ ([0x100000, 0x17FFFF] : List StepWord), decode iw = .tick :=
  ⟨by decide, by decide, forall_mem_of_all (by decide)⟩

/-- Two states of one instance that differ in every register, before the words RESET, TICK. -/
theorem witness_SinkTraceIsDeterminedByTheWords :
    let s := { at6 cfg8 0 1 100 0 0 0 with inputs := [0x200000, 0x100000] }
    let s' := { at6 cfg8 3 200 1 7 199 2 with inputs := [0x200000, 0x100000], sink := [9] }
    s.cfg = s'.cfg ∧ s.inputs = 0x200000 :: [0x100000] ∧ s'.inputs = 0x200000 :: [0x100000] ∧
      (0x200000 : StepWord).getLsbD 21 = true ∧ ∃ t, core.run (1 + 1) s = .next t :=
  ⟨rfl, rfl, rfl, by decide, _, rfl⟩

theorem witness_PseudoOperationsExpand : 99 < 100 ∧ 100 * 0 + 99 ≤ 127 ∧ 27 < 100 ∧ 100 * 1 + 27 ≤ 127 := by decide

end Sys2Proof.Tests
end

/-! A step on a state that has a word to consume. -/
section
namespace Sys2Proof.Machine

/-- The counterpart of `step_next_cases`: with a word presented, a step is the operation it spells. -/
theorem step_of_inputs_cons {s : State} {iw : StepWord} {rest : List StepWord} (h : s.inputs = iw :: rest) :
    step s = exec (decode iw) { s with inputs := rest } := by
  simp only [step, fetch_cons h]

end Sys2Proof.Machine

namespace Sys2Proof.Proofs
open Sys2Proof.Machine

/-- Settles O8 (R6, R50): `step_of_inputs_cons` at the state whose list of words is `iw :: rest`. -/
theorem stepRunsTheDecodedOperation : Obligations.StepRunsTheDecodedOperation := by
  intro s iw rest
  exact step_of_inputs_cons (s := { s with inputs := iw :: rest }) rfl

end Sys2Proof.Proofs
end

/-! Every operation is a stepper part followed by a port part (R44, R125), and what each part can do, said once. -/
section
namespace Sys2Proof.Machine

/-- What an operation does before the port writes: RESET's values, a TICK, or a step without a sink write. -/
def stepperPart (i : Instr) (s : State) : State :=
  if i = .reset then resetRegisters s else if ticks i then tick s else lowerStrobe s

/-- What the configuration port writes in an operation, nothing where the operation has no write (R125). -/
def portPart (i : Instr) (s : State) : State :=
  match i with
  | .reset | .nop | .tick => s
  | .wrWave w | .tWrWave w => writeWave w s
  | .wrNdiv n | .tWrNdiv n => writeNdiv n s
  | .wrAmp a | .tWrAmp a => writeAmp a s
  | .wrAll w n a | .tWrAll w n a => writeAll w n a s

theorem exec_eq_portPart_stepperPart (i : Instr) (s : State) : exec i s = .next (portPart i (stepperPart i s)) := by
  cases i <;> rfl

/-- The inversion form of `exec_eq_portPart_stepperPart`. -/
theorem eq_of_exec_next {i : Instr} {s t : State} (h : exec i s = .next t) : t = portPart i (stepperPart i s) := by
  rw [exec_eq_portPart_stepperPart] at h
  cases h
  rfl

@[simp] theorem portPart_cfg (i : Instr) (s : State) : (portPart i s).cfg = s.cfg := by cases i <;> rfl
@[simp] theorem portPart_tidx (i : Instr) (s : State) : (portPart i s).tidx = s.tidx := by cases i <;> rfl
@[simp] theorem portPart_tcnt (i : Instr) (s : State) : (portPart i s).tcnt = s.tcnt := by cases i <;> rfl
@[simp] theorem portPart_duty (i : Instr) (s : State) : (portPart i s).duty = s.duty := by cases i <;> rfl
@[simp] theorem portPart_dutyStb (i : Instr) (s : State) : (portPart i s).dutyStb = s.dutyStb := by cases i <;> rfl
@[simp] theorem portPart_sink (i : Instr) (s : State) : (portPart i s).sink = s.sink := by cases i <;> rfl
@[simp] theorem portPart_inputs (i : Instr) (s : State) : (portPart i s).inputs = s.inputs := by cases i <;> rfl

theorem stepperPart_reset (s : State) : stepperPart .reset s = resetRegisters s := rfl

theorem stepperPart_of_ticks {i : Instr} (h : ticks i = true) (s : State) : stepperPart i s = tick s := by
  have hr : i ≠ .reset := by
    rintro rfl
    cases h
  simp [stepperPart, hr, h]

theorem stepperPart_of_not_ticks {i : Instr} (hr : i ≠ .reset) (h : ticks i = false) (s : State) :
    stepperPart i s = lowerStrobe s := by
  simp [stepperPart, hr, h]

/-- Everything the stepper part can do, but for RESET. -/
theorem stepperPart_cases {i : Instr} (hr : i ≠ .reset) (s : State) :
    (ticks i = false ∧ stepperPart i s = lowerStrobe s) ∨
      (ticks i = true ∧ s.tcnt.toNat + 1 < s.ndiv.toNat ∧ stepperPart i s = hold s) ∨
      (ticks i = true ∧ s.ndiv.toNat ≤ s.tcnt.toNat + 1 ∧ stepperPart i s = rollover s) := by
  cases ht : ticks i with
  | false => exact .inl ⟨rfl, stepperPart_of_not_ticks hr ht s⟩
  | true =>
    rw [stepperPart_of_ticks ht]
    rcases tick_cases s with ⟨hc, e⟩ | ⟨hc, e⟩
    · exact .inr (.inl ⟨rfl, hc, e⟩)
    · exact .inr (.inr ⟨rfl, hc, e⟩)

end Sys2Proof.Machine
end

/-! The range of an emitted value (R75, R111, R112). -/
section
namespace Sys2Proof.Machine

theorem sawtoothEntry_le (c : Config) {i : Nat} (hi : i < c.r) : sawtoothEntry c i ≤ 2 * c.h :=
  Nat.div_le_of_le_mul (by rw [Nat.mul_comm c.r]; exact Nat.mul_le_mul_left _ hi.le)

theorem triangleEntry_le (c : Config) (i : Nat) : triangleEntry c i ≤ 2 * c.h := by
  have hmin : 2 * min i (c.r - i) ≤ c.r := by omega
  refine Nat.div_le_of_le_mul ?_
  calc 4 * c.h * min i (c.r - i) = 2 * c.h * (2 * min i (c.r - i)) := by ring
    _ ≤ 2 * c.h * c.r := Nat.mul_le_mul_left _ hmin
    _ = c.r * (2 * c.h) := Nat.mul_comm _ _

/-- R75: no word of a table exceeds full scale. -/
theorem lutRead_le (c : Config) (w : WaveCode) {i : Nat} (hi : i < c.r) : lutRead c w i ≤ 2 * c.h := by
  unfold lutRead tableEntry
  split
  · exact sineEntry_le c i
  · unfold squareEntry
    split <;> omega
  · exact sawtoothEntry_le c hi
  · exact triangleEntry_le c i

/-- An amplitude of at most 100 hundredths does not enlarge a sample (R111). -/
theorem scale_le_self {a : Nat} (ha : a ≤ 100) (v : Nat) : scale v a ≤ v := by
  have : v * a ≤ v * 100 := Nat.mul_le_mul_left v ha
  unfold scale
  omega

/-- The value a rollover emits is in the range of R18. -/
theorem nextDuty_le_dutyMax {s : State} (ha : s.amp.toNat ≤ 100) : nextDuty s ≤ s.cfg.dutyMax := by
  refine le_min ?_ (nextDuty_le_period s)
  calc nextDuty s ≤ scale (lutRead s.cfg s.wave (nextIndex s)) s.amp.toNat := Nat.min_le_left _ _
    _ ≤ lutRead s.cfg s.wave (nextIndex s) := scale_le_self ha _
    _ ≤ 2 * s.cfg.h := lutRead_le s.cfg s.wave (nextIndex_lt s)

end Sys2Proof.Machine
end

/-! Safety (R19, R162): the state after RESET has it, and each part of an operation keeps it. -/
section
namespace Sys2Proof.Machine

theorem safe_resetFor (c : Config) : (State.resetFor c).Safe := by
  have hi : 0 < c.r := r_pos c
  simp [State.Safe, State.Legal, State.SinkInRange, State.resetFor, hi]

theorem safe_resetRegisters {s : State} (h : s.Safe) : (resetRegisters s).Safe := by
  obtain ⟨_, hsink⟩ := h
  exact ⟨(safe_resetFor s.cfg).1, hsink⟩

theorem safe_lowerStrobe {s : State} (h : s.Safe) : (lowerStrobe s).Safe := h

theorem safe_hold {s : State} (h : s.Safe) (hc : s.tcnt.toNat + 1 < s.ndiv.toNat) : (hold s).Safe := by
  obtain ⟨⟨hn, hn', ha, ha', hi, -, hd⟩, hsink⟩ := h
  have hcnt : (hold s).tcnt.toNat ≤ 199 := by
    rw [hold_tcnt_toNat hc]
    omega
  exact ⟨⟨hn, hn', ha, ha', hi, hcnt, hd⟩, hsink⟩

theorem safe_rollover {s : State} (h : s.Safe) : (rollover s).Safe := by
  obtain ⟨⟨hn, hn', ha, ha', -, -, -⟩, hsink⟩ := h
  have hnew : nextDuty s ≤ s.cfg.dutyMax := nextDuty_le_dutyMax ha'
  refine ⟨⟨hn, hn', ha, ha', nextIndex_lt s, Nat.zero_le _, hnew⟩, fun d hd => ?_⟩
  rcases List.mem_append.mp hd with hbefore | hlast
  · exact hsink d hbefore
  · exact List.mem_singleton.mp hlast ▸ hnew

theorem safe_stepperPart (i : Instr) {s : State} (h : s.Safe) : (stepperPart i s).Safe := by
  by_cases hr : i = .reset
  · subst hr
    exact safe_resetRegisters h
  · rcases stepperPart_cases hr s with ⟨-, e⟩ | ⟨-, hc, e⟩ | ⟨-, -, e⟩ <;> rw [e]
    · exact safe_lowerStrobe h
    · exact safe_hold h hc
    · exact safe_rollover h

theorem safe_writeWave (w : WaveCode) {s : State} (h : s.Safe) : (writeWave w s).Safe := h

theorem safe_writeNdiv (n : NdivWord) {s : State} (h : s.Safe) : (writeNdiv n s).Safe := by
  obtain ⟨⟨-, -, hrest⟩, hsink⟩ := h
  obtain ⟨hn, hn'⟩ := clampN_legal n
  exact ⟨⟨hn, hn', hrest⟩, hsink⟩

theorem safe_writeAmp (a : AmpWord) {s : State} (h : s.Safe) : (writeAmp a s).Safe := by
  obtain ⟨⟨hn, hn', -, -, hrest⟩, hsink⟩ := h
  obtain ⟨ha, ha'⟩ := clampA_legal a
  exact ⟨⟨hn, hn', ha, ha', hrest⟩, hsink⟩

theorem safe_writeAll (w : WaveCode) (n : NdivWord) (a : AmpWord) {s : State} (h : s.Safe) : (writeAll w n a s).Safe :=
  safe_writeAmp a (safe_writeNdiv n (safe_writeWave w h))

theorem safe_portPart (i : Instr) {s : State} (h : s.Safe) : (portPart i s).Safe := by
  cases i with
  | reset | nop | tick => exact h
  | wrWave w | tWrWave w => exact safe_writeWave w h
  | wrNdiv n | tWrNdiv n => exact safe_writeNdiv n h
  | wrAmp a | tWrAmp a => exact safe_writeAmp a h
  | wrAll w n a | tWrAll w n a => exact safe_writeAll w n a h

theorem exec_keeps_safe {i : Instr} {s t : State} (h : s.Safe) (he : exec i s = .next t) : t.Safe := by
  rw [eq_of_exec_next he]
  exact safe_portPart i (safe_stepperPart i h)

end Sys2Proof.Machine

namespace Sys2Proof.Proofs
open Sys2Proof.Machine

/-- Settles O44 (R19, R162): the step ran an operation, and each of its two parts keeps safety. -/
theorem everyStepKeepsTheStateSafe : Obligations.EveryStepKeepsTheStateSafe := by
  intro s t hs hstep
  obtain ⟨iw, rest, -, he⟩ := step_next_cases hstep
  exact exec_keeps_safe (s := { s with inputs := rest }) hs he

/-- Settles O43 (R20, R19): the six values by definition, safety by `safe_resetFor`. -/
theorem resetStateIsSafe : Obligations.ResetStateIsSafe := fun c =>
  ⟨rfl, rfl, rfl, rfl, rfl, rfl, rfl, safe_resetFor c, safe_resetFor Config.reference⟩

/-- Settles O46 (R19, R17): a hold counts one up and stays below NDIV, a rollover leaves 0. -/
theorem counterIsBelowTheNdivTheTickRead : Obligations.CounterIsBelowTheNdivTheTickRead := by
  intro i s t hticks hndiv he
  rw [eq_of_exec_next he, portPart_tcnt, stepperPart_of_ticks hticks]
  rcases tick_cases s with ⟨hc, e⟩ | ⟨-, e⟩ <;> rw [e]
  · rw [hold_tcnt_toNat hc]
    exact ⟨hc, .inr rfl⟩
  · exact ⟨hndiv, .inl rfl⟩

end Sys2Proof.Proofs
end

/-! DUTY, the strobe and the sink trace are written and never read (R18, R23): both parts of an operation commute with
replacing them. -/
section
namespace Sys2Proof.Machine

/-- The state with other contents in the three fields that only record outputs. -/
def withRecord (d : Nat) (b : Bool) (l : List Nat) (s : State) : State := { s with duty := d, dutyStb := b, sink := l }

theorem portPart_withRecord (i : Instr) (d : Nat) (b : Bool) (l : List Nat) (s : State) :
    portPart i (withRecord d b l s) = withRecord d b l (portPart i s) := by
  cases i <;> rfl

theorem resetRegisters_withRecord (d : Nat) (b : Bool) (l : List Nat) (s : State) :
    resetRegisters (withRecord d b l s) = withRecord 0 false l (resetRegisters s) := rfl

theorem lowerStrobe_withRecord (d : Nat) (b : Bool) (l : List Nat) (s : State) :
    lowerStrobe (withRecord d b l s) = withRecord d false l (lowerStrobe s) := rfl

theorem hold_withRecord (d : Nat) (b : Bool) (l : List Nat) (s : State) :
    hold (withRecord d b l s) = withRecord d false l (hold s) := rfl

theorem rollover_withRecord (d : Nat) (b : Bool) (l : List Nat) (s : State) :
    rollover (withRecord d b l s) = withRecord (nextDuty s) true (l ++ [nextDuty s]) (rollover s) := rfl

/-- DUTY after an operation that leaves the state `t`, where it was `d` before: overwritten by a RESET or a rollover only. -/
def dutyAfter (i : Instr) (t : State) (d : Nat) : Nat := if i = .reset ∨ t.dutyStb = true then t.duty else d

/-- The stepper part of two states that differ in the record only: the same but for the record, and the same emitted. -/
theorem stepperPart_withRecord (i : Instr) (d : Nat) (b : Bool) (l : List Nat) (s : State) :
    ∃ new, (stepperPart i s).sink = s.sink ++ new ∧
      stepperPart i (withRecord d b l s) =
        withRecord (dutyAfter i (stepperPart i s) d) (stepperPart i s).dutyStb (l ++ new) (stepperPart i s) := by
  by_cases hr : i = .reset
  · subst hr
    exact ⟨[], by simp [stepperPart_reset], by simp [stepperPart_reset, resetRegisters_withRecord, dutyAfter]⟩
  cases ht : ticks i with
  | false =>
    simp only [stepperPart_of_not_ticks hr ht]
    exact ⟨[], by simp, by simp [lowerStrobe_withRecord, dutyAfter, hr]⟩
  | true =>
    simp only [stepperPart_of_ticks ht]
    rcases tick_cases s with ⟨hc, e⟩ | ⟨hc, e⟩
    · rw [e, tick_eq_hold (s := withRecord d b l s) hc]
      exact ⟨[], by simp, by simp [hold_withRecord, dutyAfter, hr]⟩
    · rw [e, tick_eq_rollover (s := withRecord d b l s) hc]
      exact ⟨[nextDuty s], rfl, by simp [rollover_withRecord, dutyAfter]⟩

end Sys2Proof.Machine

namespace Sys2Proof.Proofs
open Sys2Proof.Machine

/-- Settles O50 (R18, R23): the stepper part commutes with the replacement as `stepperPart_withRecord` says, and the port
part leaves the three fields alone. -/
theorem dutyIsNeverRead : Obligations.DutyIsNeverRead := by
  intro i s d b l
  obtain ⟨new, hsink, hrecord⟩ := stepperPart_withRecord i d b l s
  refine ⟨portPart i (stepperPart i s), new, exec_eq_portPart_stepperPart i s, by rw [portPart_sink, hsink], ?_⟩
  change exec i (withRecord d b l s) = _
  rw [exec_eq_portPart_stepperPart, hrecord, portPart_withRecord, withRecord, dutyAfter]
  simp only [← portPart_dutyStb i (stepperPart i s), ← portPart_duty i (stepperPart i s)]

end Sys2Proof.Proofs
end

/-! The index counts the sink writes and DUTY is the last of them (R16, R18, R180). -/
section
namespace Sys2Proof.Machine

/-- TIDX is the number of sink writes modulo R and DUTY the last value written, 0 before the first. -/
def CountsSinkWrites (s : State) : Prop := s.tidx = s.sink.length % s.cfg.r ∧ s.duty = s.sink.getLastD 0

theorem countsSinkWrites_resetFor (c : Config) : CountsSinkWrites (State.resetFor c) := ⟨(Nat.zero_mod c.r).symm, rfl⟩

theorem countsSinkWrites_rollover {s : State} (h : CountsSinkWrites s) : CountsSinkWrites (rollover s) := by
  obtain ⟨hidx, -⟩ := h
  constructor
  · simp [nextIndex, hidx]
  · simp

/-- Without a RESET the stepper part either leaves TIDX, DUTY and the trace alone or rolls over. -/
theorem countsSinkWrites_stepperPart {i : Instr} {s : State} (hr : i ≠ .reset) (h : CountsSinkWrites s) :
    CountsSinkWrites (stepperPart i s) := by
  rcases stepperPart_cases hr s with ⟨-, e⟩ | ⟨-, -, e⟩ | ⟨-, -, e⟩ <;> rw [e]
  · exact h
  · exact h
  · exact countsSinkWrites_rollover h

theorem countsSinkWrites_portPart (i : Instr) {s : State} (h : CountsSinkWrites s) : CountsSinkWrites (portPart i s) := by
  simpa [CountsSinkWrites] using h

end Sys2Proof.Machine

namespace Sys2Proof.Proofs
open Sys2Proof.Machine

/-- Settles O51 (R16, R18, R180): `CountsSinkWrites` holds after RESET and both parts of every other operation keep it. -/
theorem indexCountsTheSinkWrites : Obligations.IndexCountsTheSinkWrites := by
  refine ⟨countsSinkWrites_resetFor, fun i s t hr hidx hduty he => ?_⟩
  rw [eq_of_exec_next he]
  exact countsSinkWrites_portPart i (countsSinkWrites_stepperPart hr ⟨hidx, hduty⟩)

end Sys2Proof.Proofs
end

/-! Setting the tick bit of a word (R44, R52): the same port writes, with a TICK before them. -/
section
namespace Sys2Proof.Machine

/-- The operation with its tick port set: a write becomes its fused form, NOP becomes TICK. -/
def withTick : Instr → Instr
  | .reset => .reset
  | .nop | .tick => .tick
  | .wrWave w | .tWrWave w => .tWrWave w
  | .wrNdiv n | .tWrNdiv n => .tWrNdiv n
  | .wrAmp a | .tWrAmp a => .tWrAmp a
  | .wrAll w n a | .tWrAll w n a => .tWrAll w n a

theorem portsOf_or_tickBit (iw : StepWord) : portsOf (iw ||| 0x100000) = { portsOf iw with tick := true } := by
  simp [portsOf, BitVec.extractLsb'_or]

theorem operation_tick (q : Ports) : operation { q with tick := true } = withTick (operation q) := by
  obtain ⟨rst, tick, we, sel, w, n, a⟩ := q
  cases rst with
  | true => rfl
  | false =>
    cases we with
    | false => cases tick <;> rfl
    | true => cases tick <;> cases h : targetOf sel <;> simp [operation, withTick, h]

/-- The word with its tick bit set spells the operation with its tick port set. -/
theorem decode_or_tickBit (iw : StepWord) : decode (iw ||| 0x100000) = withTick (decode iw) := by
  rw [decode, portsOf_or_tickBit, operation_tick, decode]

/-- With `rst` and `tick` clear the ports spell NOP or a plain write. -/
theorem operation_of_not_tick {q : Ports} (hrst : q.rst = false) (htick : q.tick = false) :
    operation q ≠ .reset ∧ ticks (operation q) = false := by
  obtain ⟨rst, tick, we, sel, w, n, a⟩ := q
  cases hrst
  cases htick
  cases we with
  | false => exact ⟨nofun, rfl⟩
  | true => cases h : targetOf sel <;> simp [operation, ticks, h]

theorem portPart_withTick (i : Instr) (s : State) : portPart (withTick i) s = portPart i s := by
  cases i <;> rfl

theorem ticks_withTick {i : Instr} (hr : i ≠ .reset) : ticks (withTick i) = true := by
  cases i with
  | reset => exact absurd rfl hr
  | _ => rfl

/-- TICK reads no input word. -/
theorem tick_withInputs (l : List StepWord) (s : State) : tick { s with inputs := l } = { tick s with inputs := l } := by
  rcases tick_cases s with ⟨hc, e⟩ | ⟨hc, e⟩ <;> rw [e]
  · exact tick_eq_hold (s := { s with inputs := l }) hc
  · exact tick_eq_rollover (s := { s with inputs := l }) hc

/-- The port writes do not read the strobe. -/
theorem portPart_withStrobe (i : Instr) (b : Bool) (s : State) :
    portPart i { s with dutyStb := b } = { portPart i s with dutyStb := b } := by
  cases i <;> rfl

/-- R44 for an operation without a TICK: its fused form is TICK and then the operation, with the TICK's strobe. -/
theorem exec_withTick {i : Instr} (hr : i ≠ .reset) (ht : ticks i = false) (s : State) :
    ∃ v, exec i (tick s) = .next v ∧ exec (withTick i) s = .next { v with dutyStb := (tick s).dutyStb } := by
  refine ⟨portPart i (lowerStrobe (tick s)), ?_, ?_⟩
  · rw [exec_eq_portPart_stepperPart, stepperPart_of_not_ticks hr ht]
  · rw [exec_eq_portPart_stepperPart, portPart_withTick, stepperPart_of_ticks (ticks_withTick hr), ← portPart_withStrobe]
    rfl

end Sys2Proof.Machine

namespace Sys2Proof.Proofs
open Sys2Proof.Machine

/-- Settles O24 (R44): the fused word spells `withTick` of the write (`decode_or_tickBit`), and `exec_withTick` splits it.
That `we` is set is not needed: with `we` clear the same holds of NOP and TICK. -/
theorem fusedWordIsATickWordThenTheWriteWord : Obligations.FusedWordIsATickWordThenTheWriteWord := by
  intro s iw rest hrst htick _
  have ⟨hr, ht⟩ : decode iw ≠ .reset ∧ ticks (decode iw) = false := operation_of_not_tick hrst htick
  have htickWord : decode 0x100000 = .tick := by decide
  obtain ⟨v, hplain, hfused⟩ := exec_withTick hr ht { s with inputs := rest }
  rw [tick_withInputs] at hplain hfused
  refine ⟨{ tick s with inputs := iw :: rest }, v, ?_, ?_, ?_⟩
  · rw [step_of_inputs_cons rfl, htickWord, exec_eq_portPart_stepperPart, stepperPart_of_ticks rfl]
    exact congrArg _ (tick_withInputs (iw :: rest) s)
  · rw [step_of_inputs_cons rfl]
    exact hplain
  · rw [step_of_inputs_cons rfl, decode_or_tickBit]
    exact hfused

end Sys2Proof.Proofs
end

/-! The LUT space by address (R31, R32). -/
section
namespace Sys2Proof.Machine

theorem four_mul_r (c : Config) : 4 * c.r = 2 ^ (c.k + 2) := by
  rw [Config.r, pow_add, Nat.mul_comm]
  rfl

theorem lutAddr_lt (c : Config) (w : WaveCode) {i : Nat} (hi : i < c.r) : lutAddr c w i < 4 * c.r := by
  have hw : w.toNat ≤ 3 := Nat.le_of_lt_succ w.isLt
  have : w.toNat * c.r ≤ 3 * c.r := Nat.mul_le_mul_right _ hw
  unfold lutAddr
  omega

theorem lutAddr_div (c : Config) (w : WaveCode) {i : Nat} (hi : i < c.r) : lutAddr c w i / c.r = w.toNat := by
  rw [lutAddr, Nat.mul_comm, Nat.mul_add_div (r_pos c), Nat.div_eq_of_lt hi, Nat.add_zero]

theorem lutAddr_mod (c : Config) (w : WaveCode) {i : Nat} (hi : i < c.r) : lutAddr c w i % c.r = i := by
  rw [lutAddr, Nat.mul_comm, Nat.mul_add_mod, Nat.mod_eq_of_lt hi]

/-- The word at the address of entry `i` of table `w` is that entry. -/
theorem lutWord_lutAddr (c : Config) (w : WaveCode) {i : Nat} (hi : i < c.r) :
    lutWord c (lutAddr c w i) = some (lutRead c w i) := by
  rw [lutWord, if_pos (lutAddr_lt c w hi), lutAddr_div c w hi, lutAddr_mod c w hi, BitVec.ofNat_toNat, BitVec.setWidth_eq]

/-- Every address of the space is that of one entry: quotient and remainder by `R`. -/
theorem exists_lutAddr_eq (c : Config) {addr : Nat} (h : addr < 4 * c.r) : ∃ w i, i < c.r ∧ addr = lutAddr c w i := by
  have hq : addr / c.r < 4 := (Nat.div_lt_iff_lt_mul (r_pos c)).mpr h
  refine ⟨BitVec.ofNat 2 (addr / c.r), addr % c.r, Nat.mod_lt _ (r_pos c), ?_⟩
  rw [lutAddr, BitVec.toNat_ofNat, Nat.mod_eq_of_lt hq, Nat.div_add_mod']

theorem lutWord_eq_none (c : Config) {addr : Nat} (h : 4 * c.r ≤ addr) : lutWord c addr = none :=
  if_neg (Nat.not_lt.mpr h)

/-- Full scale is a word of `W` bits (R5). -/
theorem two_mul_h_lt (c : Config) : 2 * c.h < 2 ^ c.w := Nat.le_pow_clog (by decide) _

theorem lutWord_lt {c : Config} {addr v : Nat} (h : lutWord c addr = some v) : v < 2 ^ c.w := by
  rcases Nat.lt_or_ge addr (4 * c.r) with hin | hout
  · obtain ⟨w, i, hi, rfl⟩ := exists_lutAddr_eq c hin
    rw [lutWord_lutAddr c w hi] at h
    cases h
    exact (lutRead_le c w hi).trans_lt (two_mul_h_lt c)
  · rw [lutWord_eq_none c hout] at h
    cases h

/-- The words of the four tables at `i`, `R + i`, `2R + i` and `3R + i`. -/
theorem lutWord_tables (c : Config) {i : Nat} (hi : i < c.r) :
    lutWord c i = some (sineEntry c i) ∧ lutWord c (c.r + i) = some (squareEntry c i) ∧
      lutWord c (2 * c.r + i) = some (sawtoothEntry c i) ∧ lutWord c (3 * c.r + i) = some (triangleEntry c i) := by
  have h0 : i = lutAddr c 0 i := by simp [lutAddr]
  have h1 : c.r + i = lutAddr c 1 i := by simp [lutAddr]
  refine ⟨?_, ?_, lutWord_lutAddr c 2 hi, lutWord_lutAddr c 3 hi⟩
  · exact (congrArg (lutWord c) h0).trans (lutWord_lutAddr c 0 hi)
  · exact (congrArg (lutWord c) h1).trans (lutWord_lutAddr c 1 hi)

end Sys2Proof.Machine

namespace Sys2Proof.Proofs
open Sys2Proof.Machine

/-- Settles O41 (R31, R32): an address and its entry determine each other by division by `R`, and a word is at most `2H`. -/
theorem lutSpaceIsFourTablesInOrder : Obligations.LutSpaceIsFourTablesInOrder := fun c =>
  ⟨fun w _ hi => ⟨rfl, lutAddr_lt c w hi, lutWord_lutAddr c w hi⟩,
    fun _ hi => lutWord_tables c hi,
    fun _ _ => ⟨rfl, rfl, rfl, rfl⟩,
    fun _ h => exists_lutAddr_eq c h,
    fun _ h => lutWord_eq_none c h,
    four_mul_r c,
    fun _ _ h => lutWord_lt h⟩

end Sys2Proof.Proofs
end

/-! No operation changes the parameters, so none changes a table (R33). -/
section
namespace Sys2Proof.Machine

@[simp] theorem stepperPart_cfg (i : Instr) (s : State) : (stepperPart i s).cfg = s.cfg := by
  by_cases hr : i = .reset
  · subst hr
    rfl
  · rcases stepperPart_cases hr s with ⟨-, e⟩ | ⟨-, -, e⟩ | ⟨-, -, e⟩ <;> rw [e]
    · exact lowerStrobe_cfg s
    · exact hold_cfg s
    · exact rollover_cfg s

theorem cfg_eq_of_exec_next {i : Instr} {s t : State} (h : exec i s = .next t) : t.cfg = s.cfg := by
  rw [eq_of_exec_next h, portPart_cfg, stepperPart_cfg]

theorem cfg_eq_of_step_next {s t : State} (h : step s = .next t) : t.cfg = s.cfg := by
  obtain ⟨iw, rest, -, he⟩ := step_next_cases h
  exact cfg_eq_of_exec_next (s := { s with inputs := rest }) he

end Sys2Proof.Machine

namespace Sys2Proof.Proofs
open Sys2Proof.Machine

/-- Settles O49 (R33): a step keeps the parameters, and the tables are a function of them. -/
theorem theTablesNeverChange : Obligations.TheTablesNeverChange := by
  intro s t h
  have hcfg : t.cfg = s.cfg := cfg_eq_of_step_next h
  exact ⟨hcfg, fun w i => by rw [hcfg]⟩

end Sys2Proof.Proofs
end

/-! WR_ALL against the three single writes (R43, R133). -/
section
namespace Sys2Proof.Machine

/-- The three writes go to three registers and read nothing, so neither their order nor the strobe lowered between them
matters. -/
theorem writeAll_eq_singleWrites (w : WaveCode) (n : NdivWord) (a : AmpWord) (s : State) :
    writeAll w n a (lowerStrobe s) =
      writeWave w (lowerStrobe (writeNdiv n (lowerStrobe (writeAmp a (lowerStrobe s))))) := rfl

end Sys2Proof.Machine

namespace Sys2Proof.Proofs
open Sys2Proof.Machine

/-- Settles O25 (R43, R133): the three single writes in the order AMP, NDIV, WAVE, then `writeAll_eq_singleWrites`. -/
theorem wrAllEqualsThreeSingleWrites : Obligations.WrAllEqualsThreeSingleWrites := by
  intro s w n a
  refine ⟨writeAmp a (lowerStrobe s), writeNdiv n (lowerStrobe (writeAmp a (lowerStrobe s))),
    writeWave w (lowerStrobe (writeNdiv n (lowerStrobe (writeAmp a (lowerStrobe s))))), rfl, rfl, rfl, ?_⟩
  rw [← writeAll_eq_singleWrites]
  rfl

end Sys2Proof.Proofs
end

/-! The word and its ports determine each other (R52), and with them the word and its operation (R55, R56). -/
section
namespace Sys2Proof

/-- The converse of `getLsbD_of_field`: a field of the word is known by its bits. -/
theorem extractLsb'_eq_of_getLsbD {iw : StepWord} {lo n : Nat} {v : BitVec n}
    (h : ∀ i, i < n → iw.getLsbD (lo + i) = v.getLsbD i) : iw.extractLsb' lo n = v := by
  apply BitVec.eq_of_getLsbD_eq
  intro i hi
  rw [BitVec.getLsbD_extractLsb', decide_eq_true hi, Bool.true_and, h i hi]

theorem portsOf_wordOf (q : Ports) : portsOf (wordOf q) = q := by
  have hsel : (wordOf q).extractLsb' 17 2 = q.sel := extractLsb'_eq_of_getLsbD fun i hi => by
    simp (disch := omega) only [wordOf_getLsbD, if_pos, if_neg, Nat.add_sub_cancel_left]
  have hwave : (wordOf q).extractLsb' 15 2 = q.wave := extractLsb'_eq_of_getLsbD fun i hi => by
    simp (disch := omega) only [wordOf_getLsbD, if_pos, if_neg, Nat.add_sub_cancel_left]
  have hndiv : (wordOf q).extractLsb' 7 8 = q.ndiv := extractLsb'_eq_of_getLsbD fun i hi => by
    simp (disch := omega) only [wordOf_getLsbD, if_pos, if_neg, Nat.add_sub_cancel_left]
  have hamp : (wordOf q).extractLsb' 0 7 = q.amp := extractLsb'_eq_of_getLsbD fun i hi => by
    simp (disch := omega) only [wordOf_getLsbD, if_pos, Nat.zero_add]
  simp only [portsOf, wordOf_getLsbD, hsel, hwave, hndiv, hamp]
  rfl

theorem wordOf_portsOf (iw : StepWord) : wordOf (portsOf iw) = iw := by
  apply BitVec.eq_of_getLsbD_eq
  intro i hi
  rw [wordOf_getLsbD]
  simp only [portsOf, BitVec.getLsbD_extractLsb']
  interval_cases i <;> rfl

/-- The library's `BitVec.toNat_append` in arithmetic form. -/
theorem toNat_append_eq_add {n m : Nat} (x : BitVec n) (y : BitVec m) :
    (x ++ y).toNat = 2 ^ m * x.toNat + y.toNat := by
  rw [BitVec.toNat_append, ← Nat.shiftLeft_add_eq_or_of_lt y.isLt, Nat.shiftLeft_eq, Nat.mul_comm]

theorem wordOf_toNat (q : Ports) :
    (wordOf q).toNat =
      2 ^ 21 * q.rst.toNat + 2 ^ 20 * q.tick.toNat + 2 ^ 19 * q.we.toNat + 2 ^ 17 * q.sel.toNat + 2 ^ 15 * q.wave.toNat +
        2 ^ 7 * q.ndiv.toNat + q.amp.toNat := by
  simp only [wordOf, toNat_append_eq_add, BitVec.toNat_ofBool]
  omega

theorem decode_encode (i : Instr) : decode (encode i) = i := by
  rw [decode, encode, portsOf_wordOf, operation_canonicalPorts]

theorem encode_injective : Function.Injective encode := Function.LeftInverse.injective decode_encode

end Sys2Proof

namespace Sys2Proof.Proofs

/-- Settles O6 (R52): the positions are the weights of the concatenation's parts, and each direction is read off the bits. -/
theorem stepWordIsTheConcatenationOfThePorts : Obligations.StepWordIsTheConcatenationOfThePorts :=
  ⟨wordOf_toNat, portsOf_wordOf, wordOf_portsOf⟩

/-- Settles O2 (R55, R56): the canonical word keeps the canonical ports (`portsOf_wordOf`), which spell the operation. -/
theorem decodeOfEncodeIsTheOperation : Obligations.DecodeOfEncodeIsTheOperation := decode_encode

end Sys2Proof.Proofs
end

/-! Re-encoding a word clears the bits its row ignores (R56): a row ignores whole ports, never a part of one. -/
section
namespace Sys2Proof

/-- The conjunction of two words, port by port. -/
def Ports.and (q k : Ports) : Ports where
  rst := q.rst && k.rst
  tick := q.tick && k.tick
  we := q.we && k.we
  sel := q.sel &&& k.sel
  wave := q.wave &&& k.wave
  ndiv := q.ndiv &&& k.ndiv
  amp := q.amp &&& k.amp

theorem portsOf_and (iw iw' : StepWord) : portsOf (iw &&& iw') = (portsOf iw).and (portsOf iw') := by
  simp [portsOf, Ports.and, BitVec.extractLsb'_and]

/-- The ports an operation depends on, every bit of them set. -/
def readPorts : Instr → Ports
  | .reset => { rst := true, tick := false, we := false, sel := 0, wave := 0, ndiv := 0, amp := 0 }
  | .nop | .tick => { rst := true, tick := true, we := true, sel := 0, wave := 0, ndiv := 0, amp := 0 }
  | .wrWave _ | .tWrWave _ =>
    { rst := true, tick := true, we := true, sel := .allOnes 2, wave := .allOnes 2, ndiv := 0, amp := 0 }
  | .wrNdiv _ | .tWrNdiv _ =>
    { rst := true, tick := true, we := true, sel := .allOnes 2, wave := 0, ndiv := .allOnes 8, amp := 0 }
  | .wrAmp _ | .tWrAmp _ =>
    { rst := true, tick := true, we := true, sel := .allOnes 2, wave := 0, ndiv := 0, amp := .allOnes 7 }
  | .wrAll _ _ _ | .tWrAll _ _ _ =>
    { rst := true, tick := true, we := true, sel := .allOnes 2, wave := .allOnes 2, ndiv := .allOnes 8, amp := .allOnes 7 }

/-- The ignored bits of R55's table are those of the ports an operation does not depend on. -/
theorem portsOf_not_ignored (i : Instr) : portsOf (~~~(rowOf i).ignored) = readPorts i := by
  cases i <;> simp only [rowOf, readPorts] <;> rfl

theorem selOf_targetOf (sel : BitVec 2) : selOf (targetOf sel) = sel := by
  revert sel
  decide

theorem targetOf_selOf (t : Target) : targetOf (selOf t) = t := by cases t <;> rfl

/-- The canonical ports of the operation that ports spell are those ports, cleared where it does not depend on them. -/
theorem canonicalPorts_operation (q : Ports) : canonicalPorts (operation q) = q.and (readPorts (operation q)) := by
  obtain ⟨rst, tick, we, sel, w, n, a⟩ := q
  obtain ⟨t, rfl⟩ : ∃ t, selOf t = sel := ⟨targetOf sel, selOf_targetOf sel⟩
  cases rst with
  | true => simp [operation, canonicalPorts, readPorts, Ports.and]
  | false =>
    cases we with
    | false => cases tick <;> simp [operation, canonicalPorts, readPorts, Ports.and]
    | true =>
      cases tick <;> cases t <;>
        simp [operation, targetOf_selOf, canonicalPorts, writePorts, readPorts, Ports.and, -BitVec.reduceAllOnes]

theorem encode_decode (iw : StepWord) : encode (decode iw) = iw &&& ~~~(rowOf (decode iw)).ignored := by
  have h : canonicalPorts (decode iw) = portsOf (iw &&& ~~~(rowOf (decode iw)).ignored) := by
    rw [portsOf_and, portsOf_not_ignored]
    exact canonicalPorts_operation (portsOf iw)
  rw [encode, h, wordOf_portsOf]

theorem encode_and_ignored (i : Instr) : encode i &&& (rowOf i).ignored = 0 := by
  have h : encode i = encode i &&& ~~~(rowOf i).ignored := by
    simpa only [decode_encode] using encode_decode (encode i)
  rw [h, BitVec.and_assoc]
  simp

end Sys2Proof

namespace Sys2Proof.Proofs

/-- Settles O3 (R56): `encode_decode` for every word, and the canonical words are the case where nothing is left to clear. -/
theorem canonicalWordsHaveIgnoredBitsZero : Obligations.CanonicalWordsHaveIgnoredBitsZero :=
  ⟨encode_and_ignored, encode_decode⟩

end Sys2Proof.Proofs
end

/-! A word spells the row of the operation it decodes to and no other (R55). -/
section
namespace Sys2Proof

/-- Laws.CanonicalWord for every operation. -/
theorem encode_and_mask (i : Instr) : encode i &&& (rowOf i).mask = (rowOf i).pattern := by
  cases i with
  | reset => exact Laws.CanonicalWord.reset
  | nop => exact Laws.CanonicalWord.nop
  | tick => exact Laws.CanonicalWord.tick
  | wrWave w => exact Laws.CanonicalWord.wrWave w
  | wrNdiv n => exact Laws.CanonicalWord.wrNdiv n
  | wrAmp a => exact Laws.CanonicalWord.wrAmp a
  | wrAll w n a => exact Laws.CanonicalWord.wrAll w n a
  | tWrWave w => exact Laws.CanonicalWord.tWrWave w
  | tWrNdiv n => exact Laws.CanonicalWord.tWrNdiv n
  | tWrAmp a => exact Laws.CanonicalWord.tWrAmp a
  | tWrAll w n a => exact Laws.CanonicalWord.tWrAll w n a

/-- No ignored bit decides the operation. -/
theorem not_ignored_and_mask (i : Instr) : ~~~(rowOf i).ignored &&& (rowOf i).mask = (rowOf i).mask := by
  cases i <;> simp only [rowOf] <;> rfl

theorem and_mask_decode (iw : StepWord) : iw &&& (rowOf (decode iw)).mask = (rowOf (decode iw)).pattern := by
  rw [← encode_and_mask, encode_decode, BitVec.and_assoc, not_ignored_and_mask]

theorem rowOf_mem_opcodeTable (i : Instr) : rowOf i ∈ opcodeTable := by
  cases i <;> simp [opcodeTable, rowOf]

/-- Two different rows ask for different values of a bit that both masks hold. -/
theorem eq_of_patterns_agree :
    ∀ r ∈ opcodeTable, ∀ r' ∈ opcodeTable, r.pattern &&& r'.mask = r'.pattern &&& r.mask → r = r' := by
  decide

theorem opcodeTable_nodup : opcodeTable.Nodup := by decide

theorem eq_of_and_mask_eq {iw : StepWord} {r r' : Row} (hr : r ∈ opcodeTable) (hr' : r' ∈ opcodeTable)
    (h : iw &&& r.mask = r.pattern) (h' : iw &&& r'.mask = r'.pattern) : r = r' := by
  apply eq_of_patterns_agree r hr r' hr'
  rw [← h, ← h', BitVec.and_assoc, BitVec.and_assoc, BitVec.and_comm r.mask]

theorem and_mask_eq_pattern_iff {iw : StepWord} {r : Row} (hr : r ∈ opcodeTable) :
    iw &&& r.mask = r.pattern ↔ r = rowOf (decode iw) := by
  refine ⟨fun h => eq_of_and_mask_eq hr (rowOf_mem_opcodeTable _) h (and_mask_decode iw), ?_⟩
  rintro rfl
  exact and_mask_decode iw

theorem filter_opcodeTable (iw : StepWord) :
    (opcodeTable.filter fun r => iw &&& r.mask == r.pattern) = [rowOf (decode iw)] := by
  calc opcodeTable.filter (fun r => iw &&& r.mask == r.pattern)
      = opcodeTable.filter (· == rowOf (decode iw)) :=
        List.filter_congr fun r hr => by rw [Bool.eq_iff_iff, beq_iff_eq, beq_iff_eq, and_mask_eq_pattern_iff hr]
    _ = [rowOf (decode iw)] := by
        rw [List.filter_beq, List.count_eq_one_of_mem opcodeTable_nodup (rowOf_mem_opcodeTable _)]
        rfl

/-- R55's order of decision as one chain of conditions. -/
theorem operation_eq_ite (q : Ports) :
    operation q =
      if q.rst then .reset
      else if !q.tick && !q.we then .nop
      else if q.tick && !q.we then .tick
      else if !q.tick then
        if q.sel = 0 then .wrWave q.wave
        else if q.sel = 1 then .wrNdiv q.ndiv
        else if q.sel = 2 then .wrAmp q.amp
        else .wrAll q.wave q.ndiv q.amp
      else
        if q.sel = 0 then .tWrWave q.wave
        else if q.sel = 1 then .tWrNdiv q.ndiv
        else if q.sel = 2 then .tWrAmp q.amp
        else .tWrAll q.wave q.ndiv q.amp := by
  obtain ⟨rst, tick, we, sel, w, n, a⟩ := q
  cases rst with
  | true => rfl
  | false =>
    cases we with
    | false => cases tick <;> rfl
    | true =>
      cases tick <;> simp only [operation, targetOf, Bool.false_eq_true, Bool.not_true, Bool.not_false, Bool.and_false,
        if_false, if_true] <;> split_ifs <;> rfl

end Sys2Proof

namespace Sys2Proof.Proofs

/-- Settles O5 (R55): a word's row is found by its canonical word, is the only one because the patterns exclude each other,
and the decision order is the operation's own. -/
theorem everyWordSpellsExactlyOneOperation : Obligations.EveryWordSpellsExactlyOneOperation :=
  ⟨rfl, filter_opcodeTable, fun iw => operation_eq_ite (portsOf iw)⟩

end Sys2Proof.Proofs
end

/-! Ignored bits, totality and clamping (R57). -/
section
namespace Sys2Proof

/-- A word that agrees with another outside the ignored bits of that one's row stands in the same row, so it has the same
canonical word. -/
theorem decode_eq_of_agree {iw iw' : StepWord}
    (h : iw &&& ~~~(rowOf (decode iw)).ignored = iw' &&& ~~~(rowOf (decode iw)).ignored) : decode iw = decode iw' := by
  have hspells : iw' &&& (rowOf (decode iw)).mask = (rowOf (decode iw)).pattern := by
    rw [← not_ignored_and_mask, ← BitVec.and_assoc, ← h, BitVec.and_assoc, not_ignored_and_mask, and_mask_decode]
  have hrow : rowOf (decode iw) = rowOf (decode iw') :=
    (and_mask_eq_pattern_iff (rowOf_mem_opcodeTable _)).mp hspells
  apply encode_injective
  rw [encode_decode, encode_decode, h, hrow]

end Sys2Proof

namespace Sys2Proof.Machine

theorem clampN_toNat (n : NdivWord) : (clampN n).toNat = min (max n.toNat 1) 200 := by
  simp only [clampN, clamp, BitVec.toNat_ofNat]
  omega

theorem clampA_toNat (a : AmpWord) : (clampA a).toNat = min (max a.toNat 1) 100 := by
  simp only [clampA, clamp, BitVec.toNat_ofNat]
  omega

end Sys2Proof.Machine

namespace Sys2Proof.Proofs
open Sys2Proof.Machine

/-- Settles O4 (R57): such words spell one operation (`decode_eq_of_agree`), every operation completes, and WR_ALL writes
the clamped values. -/
theorem ignoredBitsHaveNoEffect : Obligations.IgnoredBitsHaveNoEffect := by
  refine ⟨fun s iw iw' rest h => ?_, fun s iw rest => ?_, fun s w n a => ?_⟩
  · rw [step_of_inputs_cons (s := { s with inputs := iw :: rest }) rfl,
      step_of_inputs_cons (s := { s with inputs := iw' :: rest }) rfl, decode_eq_of_agree h]
  · rw [step_of_inputs_cons (s := { s with inputs := iw :: rest }) rfl]
    exact exec_completes _ _
  · exact ⟨writeAll w n a (lowerStrobe s), rfl, clampN_toNat n, clampA_toNat a⟩

end Sys2Proof.Proofs
end

/-! The codes of `sel` and `wave` (R53). -/
section
namespace Sys2Proof.Proofs
open Sys2Proof.Machine

/-- Settles O7 (R53): `sel` by the inverse of `selOf`, `wave` by the bijection of R13. -/
theorem selAndWaveFieldsDecode : Obligations.SelAndWaveFieldsDecode :=
  ⟨⟨targetOf_selOf .wave, targetOf_selOf .ndiv, targetOf_selOf .amp, targetOf_selOf .all⟩,
    waveformOf_codeOf .sine, waveformOf_codeOf .square, waveformOf_codeOf .sawtooth, waveformOf_codeOf .triangle⟩

end Sys2Proof.Proofs
end

/-! Decimal digits are read back (R59). -/
section
namespace Sys2Proof.Machine

theorem digitValue_of_isDigit {c : Char} (h : c.isDigit = true) : digitValue 10 c = some (c.toNat - '0'.toNat) := by
  have hc : '0' ≤ c ∧ c ≤ '9' := by simpa [Char.isDigit, Char.le_def] using h
  have hv : c.toNat - '0'.toNat < 10 := by
    have : c.toNat ≤ 57 := hc.2
    change c.toNat - 48 < 10
    omega
  simp only [digitValue, if_pos hc, if_pos hv]

/-- On digits the model reads what the library's `Nat.ofDigitChars` reads. -/
theorem digitsValue_of_isDigit {cs : List Char} (h : ∀ c ∈ cs, c.isDigit = true) (acc : Nat) :
    digitsValue 10 acc cs = some (Nat.ofDigitChars 10 cs acc) := by
  induction cs generalizing acc with
  | nil => rfl
  | cons c cs ih =>
    obtain ⟨hc, hcs⟩ := List.forall_mem_cons.mp h
    simp only [digitsValue, digitValue_of_isDigit hc, ih hcs, Nat.ofDigitChars_cons]

/-- Digits hold no `x`, so they are no hexadecimal number. -/
theorem numberOf_of_isDigit {cs : List Char} (hne : cs ≠ []) (h : ∀ c ∈ cs, c.isDigit = true) :
    numberOf cs = digitsValue 10 0 cs := by
  have hx : 'x' ∉ cs := fun hmem => absurd (h 'x' hmem) (by decide)
  unfold numberOf
  split
  · exact absurd rfl hne
  · simp at hx
  · simp at hx
  · rfl

theorem decimalText_ne_nil (n : Nat) : decimalText n ≠ [] := Nat.toDigits_ne_nil

theorem isDigit_of_mem_decimalText {n : Nat} {c : Char} (h : c ∈ decimalText n) : c.isDigit = true :=
  Nat.isDigit_of_mem_toDigits (by decide) (by decide) h

theorem numberOf_decimalText (n : Nat) : numberOf (decimalText n) = some n := by
  have hdigits : ∀ c ∈ decimalText n, c.isDigit = true := fun _ => isDigit_of_mem_decimalText
  rw [numberOf_of_isDigit (decimalText_ne_nil n) hdigits, digitsValue_of_isDigit hdigits, decimalText,
    Nat.ofDigitChars_ten_toDigits]

theorem fieldOf_decimalText {w : Nat} (v : BitVec w) : fieldOf w (decimalText v.toNat) = some v := by
  simp [fieldOf, numberOf_decimalText, v.isLt]

theorem waveOperand_decimalText (w : WaveCode) : waveOperand (decimalText w.toNat) = some w := by
  revert w
  decide

/-- The mnemonic and the operands of an operation, once apart, spell it. -/
theorem lineOf_operandsOf (i : Instr) : lineOf (mnemonicText i) ((operandsOf i).map decimalText) = some (.op i) := by
  cases i <;> simp [lineOf, mnemonicText, operandsOf, fieldOf_decimalText, waveOperand_decimalText]

end Sys2Proof.Machine
end

/-! A rendered line is cut where it was joined: no mnemonic and no number holds a separator (R59). -/
section
namespace Sys2Proof.Machine

/-- Text that is not empty and holds none of the separators of a line. -/
structure Plain (t : List Char) : Prop where
  ne_nil : t ≠ []
  noSpace : ' ' ∉ t
  noComma : ',' ∉ t
  noSemicolon : ';' ∉ t

theorem plain_mnemonicText (i : Instr) : Plain (mnemonicText i) := by
  cases i <;> constructor <;> simp [mnemonicText]

theorem plain_decimalText (n : Nat) : Plain (decimalText n) := by
  have hdigit (c : Char) (hc : c.isDigit = false) : c ∉ decimalText n := fun hmem =>
    absurd (isDigit_of_mem_decimalText hmem) (by rw [hc]; decide)
  exact ⟨decimalText_ne_nil n, hdigit ' ' rfl, hdigit ',' rfl, hdigit ';' rfl⟩

theorem trimText_nil : trimText [] = [] := rfl

theorem trimText_cons_space (t : List Char) : trimText (' ' :: t) = trimText t := by simp [trimText]

theorem trimText_eq_self {t : List Char} (hfirst : t.head? ≠ some ' ') (hlast : t.getLast? ≠ some ' ') :
    trimText t = t := by
  rw [← List.head?_reverse] at hlast
  rw [trimText, List.dropWhile_beq_eq_self_of_head?_ne hfirst, List.dropWhile_beq_eq_self_of_head?_ne hlast,
    List.reverse_reverse]

theorem trimText_of_plain {t : List Char} (h : Plain t) : trimText t = t := by
  exact trimText_eq_self (fun e => h.noSpace (List.mem_of_head? e)) (fun e => h.noSpace (List.mem_of_getLast? e))

theorem head?_plain_append_ne_space {m : List Char} (hm : Plain m) (u : List Char) : (m ++ u).head? ≠ some ' ' := by
  rw [List.head?_append_of_ne_nil _ hm.ne_nil]
  exact fun e => hm.noSpace (List.mem_of_head? e)

theorem operandText_singleton (n : Nat) : operandText [n] = decimalText n := rfl

theorem operandText_cons_cons (n n' : Nat) (ns : List Nat) :
    operandText (n :: n' :: ns) = decimalText n ++ ',' :: ' ' :: operandText (n' :: ns) := rfl

theorem operandText_ne_nil (n : Nat) (ns : List Nat) : operandText (n :: ns) ≠ [] := by
  cases ns with
  | nil => exact decimalText_ne_nil n
  | cons n' ns => simp [operandText_cons_cons]

theorem semicolon_notMem_operandText (n : Nat) (ns : List Nat) : ';' ∉ operandText (n :: ns) := by
  induction ns generalizing n with
  | nil => exact (plain_decimalText n).noSemicolon
  | cons n' ns ih => simp [operandText_cons_cons, (plain_decimalText n).noSemicolon, ih n']

theorem head?_operandText_ne_space (n : Nat) (ns : List Nat) : (operandText (n :: ns)).head? ≠ some ' ' := by
  cases ns with
  | nil => simpa [operandText_singleton] using head?_plain_append_ne_space (plain_decimalText n) []
  | cons n' ns => exact head?_plain_append_ne_space (plain_decimalText n) _

theorem getLast?_append_operandText_ne_space (t : List Char) (n : Nat) (ns : List Nat) :
    (t ++ operandText (n :: ns)).getLast? ≠ some ' ' := by
  rw [List.getLast?_append_of_ne_nil t (operandText_ne_nil n ns)]
  induction ns generalizing n with
  | nil =>
    exact fun e => (plain_decimalText n).noSpace (List.mem_of_getLast? e)
  | cons n' ns ih =>
    have h : operandText (n :: n' :: ns) = (decimalText n ++ [',', ' ']) ++ operandText (n' :: ns) := by
      simp [operandText_cons_cons]
    rw [h, List.getLast?_append_of_ne_nil _ (operandText_ne_nil n' ns)]
    exact ih n'

theorem trimText_operandText (n : Nat) (ns : List Nat) : trimText (operandText (n :: ns)) = operandText (n :: ns) :=
  trimText_eq_self (head?_operandText_ne_space n ns) (getLast?_append_operandText_ne_space [] n ns)

/-- The space after a comma is trimmed with the part it stands in. -/
theorem map_trimText_splitOn_cons_space (t : List Char) :
    ((' ' :: t).splitOn ',').map trimText = (t.splitOn ',').map trimText := by
  have h : (' ' :: t).splitOn ',' = (t.splitOn ',').modifyHead (' ' :: ·) := by
    rw [List.splitOn_cons_eq_if_modifyHead]
    rfl
  rw [h]
  cases t.splitOn ',' with
  | nil => rfl
  | cons x xs => simp [trimText_cons_space]

theorem map_trimText_splitOn_operandText (n : Nat) (ns : List Nat) :
    ((operandText (n :: ns)).splitOn ',').map trimText = (n :: ns).map decimalText := by
  induction ns generalizing n with
  | nil =>
    have hn := plain_decimalText n
    rw [operandText_singleton, List.splitOn_eq_singleton hn.noComma, List.map_singleton, trimText_of_plain hn,
      List.map_singleton]
  | cons n' ns ih =>
    have hn := plain_decimalText n
    rw [operandText_cons_cons, List.splitOn_append_cons_self_of_not_mem hn.noComma, List.map_cons,
      map_trimText_splitOn_cons_space, ih, trimText_of_plain hn, ← List.map_cons]

theorem bne_of_notMem {c : Char} {t : List Char} (h : c ∉ t) : ∀ x ∈ t, (x != c) = true :=
  fun _ hx => bne_iff_ne.mpr (ne_of_mem_of_not_mem hx h)

/-- A trimmed line without a comment is a mnemonic up to its first space and the operands after it. -/
theorem parseLine_plain_append {m u : List Char} (hm : Plain m) (hu : ∀ c ∈ u.head?, c = ' ') (hsemi : ';' ∉ u)
    (hlast : (m ++ u).getLast? ≠ some ' ') :
    parseLine (m ++ u) =
      (lineOf m (if (trimText u).isEmpty then [] else ((trimText u).splitOn ',').map trimText)).bind expand := by
  have htrim : trimText (m ++ u) = m ++ u := trimText_eq_self (head?_plain_append_ne_space hm u) hlast
  have hline : (m ++ u).takeWhile (· != ';') = m ++ u :=
    List.takeWhile_eq_self_iff.mpr (bne_of_notMem (by simp [hsemi, hm.noSemicolon]))
  have hcut : u.takeWhile (· != ' ') = [] ∧ u.dropWhile (· != ' ') = u := by
    cases u with
    | nil => simp
    | cons c u => simp [hu c rfl]
  have hmnemonic : (m ++ u).takeWhile (· != ' ') = m := by
    rw [List.takeWhile_append_of_pos (bne_of_notMem hm.noSpace), hcut.1, List.append_nil]
  have hrest : (m ++ u).dropWhile (· != ' ') = u := by
    rw [List.dropWhile_append_of_pos (bne_of_notMem hm.noSpace), hcut.2]
  have hempty : (m ++ u).isEmpty = false := by simp [hm.ne_nil]
  simp only [parseLine, hline, htrim, hmnemonic, hrest, hempty]
  rfl

theorem parseLine_mnemonic {m : List Char} (hm : Plain m) : parseLine m = (lineOf m []).bind expand := by
  have hlast : (m ++ []).getLast? ≠ some ' ' := by
    rw [List.append_nil]
    exact fun e => hm.noSpace (List.mem_of_getLast? e)
  simpa [trimText_nil] using parseLine_plain_append hm (by simp) List.not_mem_nil hlast

theorem parseLine_operands {m : List Char} (hm : Plain m) (n : Nat) (ns : List Nat) :
    parseLine (m ++ ' ' :: operandText (n :: ns)) = (lineOf m ((n :: ns).map decimalText)).bind expand := by
  have hlast : (m ++ ' ' :: operandText (n :: ns)).getLast? ≠ some ' ' := by
    simpa using getLast?_append_operandText_ne_space (m ++ [' ']) n ns
  have hsemi : ';' ∉ ' ' :: operandText (n :: ns) := by simp [semicolon_notMem_operandText]
  have hempty : (operandText (n :: ns)).isEmpty = false := by simp [operandText_ne_nil]
  rw [parseLine_plain_append hm (by simp) hsemi hlast, trimText_cons_space, trimText_operandText, hempty,
    if_neg Bool.false_ne_true, map_trimText_splitOn_operandText]

/-- Parsing cuts a rendered line into the mnemonic and the operands it was made of. -/
theorem parseLine_render (i : Instr) :
    parseLine (render i) = (lineOf (mnemonicText i) ((operandsOf i).map decimalText)).bind expand := by
  unfold render
  cases operandsOf i with
  | nil => exact parseLine_mnemonic (plain_mnemonicText i)
  | cons n ns => exact parseLine_operands (plain_mnemonicText i) n ns

end Sys2Proof.Machine

namespace Sys2Proof.Proofs
open Sys2Proof.Machine

/-- Settles O56 (R59): the line is cut where it was joined (`parseLine_render`), and its parts spell the operation
(`lineOf_operandsOf`). -/
theorem traceTextRoundTrip : Obligations.TraceTextRoundTrip := by
  intro i
  rw [parseLine_render, lineOf_operandsOf]
  rfl

end Sys2Proof.Proofs
end

/-! The pseudo-operations (R60). -/
section
namespace Sys2Proof.Machine

theorem expand_wrAmpf {x yy : Nat} (hyy : yy < 100) (hv : 100 * x + yy < 128) :
    expand (.wrAmpf x yy) = some [.wrAmp (BitVec.ofNat 7 (100 * x + yy))] := if_pos ⟨hyy, hv⟩

end Sys2Proof.Machine

namespace Sys2Proof.Proofs
open Sys2Proof.Machine

/-- Settles O55 (R60): the repetitions by definition, WR_AMPF by `expand_wrAmpf`, of which the two examples are instances. -/
theorem pseudoOperationsExpand : Obligations.PseudoOperationsExpand :=
  ⟨fun _ => ⟨rfl, rfl⟩, fun _ _ hyy hv => expand_wrAmpf hyy (Nat.lt_succ_of_le hv),
    expand_wrAmpf (by decide) (by decide), expand_wrAmpf (by decide) (by decide)⟩

end Sys2Proof.Proofs
end

/-! The Sine entry is the one integer within 1/2 of the real value, so an equation of real values is one of entries
(R71, R76, R80). -/
section
namespace Sys2Proof.Machine

theorem eq_floor_of_abs_sub_lt_half {x : ℝ} {n : ℤ} (h : |(n : ℝ) - x| < 1 / 2) : n = ⌊x + 1 / 2⌋ := by
  obtain ⟨hlow, hhigh⟩ := abs_lt.mp h
  exact (Int.floor_eq_iff.mpr ⟨by linarith, by linarith⟩).symm

theorem sineEntry_eq_floor (c : Config) {i : Nat} (hi : i < c.r) :
    (sineEntry c i : ℤ) = ⌊idealSine c.k c.h i + 1 / 2⌋ :=
  eq_floor_of_abs_sub_lt_half (mod_cast sineExact c i hi)

/-- R80: the entry is the only integer within 1/2 of the real value. -/
theorem abs_sub_idealSine_lt_half_iff (c : Config) {i : Nat} (hi : i < c.r) (n : ℤ) :
    |(n : ℝ) - idealSine c.k c.h i| < 1 / 2 ↔ n = sineEntry c i := by
  constructor
  · intro h
    rw [sineEntry_eq_floor c hi]
    exact eq_floor_of_abs_sub_lt_half h
  · rintro rfl
    exact mod_cast sineExact c i hi

theorem sineEntry_eq_of_idealSine_eq (c : Config) {i n : Nat} (hi : i < c.r) (h : idealSine c.k c.h i = n) :
    sineEntry c i = n := by
  have hwithin : |((n : ℤ) : ℝ) - idealSine c.k c.h i| < 1 / 2 := by simp [h]
  exact_mod_cast ((abs_sub_idealSine_lt_half_iff c hi n).mp hwithin).symm

end Sys2Proof.Machine
end

/-! The sine at the `R` sample points: its corners, its symmetries and where it grows (R71, R76). -/
section
namespace Sys2Proof.Machine

/-- `sin(2π·i/R)`, for `R = 2^k`. -/
noncomputable def sampleSine (k i : Nat) : ℝ := Real.sin (2 * Real.pi * (i : ℝ) / ((2 ^ k : Nat) : ℝ))

theorem idealSine_eq (k h i : Nat) : idealSine k h i = h + h * sampleSine k i := by
  rw [idealSine, sampleSine, mul_one_add]

theorem half_lt_r (c : Config) : c.r / 2 < c.r := Nat.div_lt_self (r_pos c) (by decide)

theorem cast_r_eq_two_mul_half (c : Config) : ((2 ^ c.k : Nat) : ℝ) = 2 * ((c.r / 2 : Nat) : ℝ) :=
  mod_cast r_eq_two_mul_half c

theorem cast_half_pos (c : Config) : (0 : ℝ) < ((c.r / 2 : Nat) : ℝ) := by
  have := two_le_r c
  exact Nat.cast_pos.mpr (by omega)

theorem sampleSine_zero (k : Nat) : sampleSine k 0 = 0 := by simp [sampleSine]

theorem sampleSine_one (c : Config) : sampleSine c.k 1 = Real.sin (2 * Real.pi / (c.r : ℝ)) := by
  rw [sampleSine, Nat.cast_one, mul_one, Config.r]

/-- Half a cycle later the sine is negated. -/
theorem sampleSine_half_add (c : Config) (j : Nat) : sampleSine c.k (c.r / 2 + j) = -sampleSine c.k j := by
  have := cast_half_pos c
  rw [sampleSine, sampleSine, ← Real.sin_add_pi, cast_r_eq_two_mul_half, Nat.cast_add]
  congr 1
  field_simp
  ring

/-- Mirrored at a quarter of the cycle the sine is the same. -/
theorem sampleSine_half_sub (c : Config) {j : Nat} (hj : j ≤ c.r / 2) :
    sampleSine c.k (c.r / 2 - j) = sampleSine c.k j := by
  have := cast_half_pos c
  rw [sampleSine, sampleSine, ← Real.sin_pi_sub, cast_r_eq_two_mul_half, Nat.cast_sub hj]
  congr 1
  field_simp
  ring

theorem sampleSine_half (c : Config) : sampleSine c.k (c.r / 2) = 0 := by
  simpa [sampleSine_zero] using sampleSine_half_add c 0

theorem r_eq_four_mul_quarter {c : Config} (hr : 4 ≤ c.r) : c.r = 4 * (c.r / 4) := by
  have hk : 2 ≤ c.k := (Nat.pow_le_pow_iff_right (a := 2) (by decide)).mp hr
  exact (Nat.mul_div_cancel' (pow_dvd_pow 2 hk)).symm

theorem sampleSine_quarter {c : Config} (hr : 4 ≤ c.r) : sampleSine c.k (c.r / 4) = 1 := by
  have hpos : (0 : ℝ) < ((c.r / 4 : Nat) : ℝ) := Nat.cast_pos.mpr (by omega)
  have hcast : ((2 ^ c.k : Nat) : ℝ) = 4 * ((c.r / 4 : Nat) : ℝ) := mod_cast r_eq_four_mul_quarter hr
  rw [sampleSine, hcast, ← Real.sin_pi_div_two]
  congr 1
  field_simp
  ring

theorem sampleSine_threeQuarters {c : Config} (hr : 4 ≤ c.r) : sampleSine c.k (3 * c.r / 4) = -1 := by
  have hsplit : 3 * c.r / 4 = c.r / 2 + c.r / 4 := by
    have := r_eq_four_mul_quarter hr
    omega
  rw [hsplit, sampleSine_half_add, sampleSine_quarter hr]

theorem sampleSine_nonneg (c : Config) {i : Nat} (hi : i ≤ c.r / 2) : 0 ≤ sampleSine c.k i := by
  have hpos := cast_half_pos c
  have hle : (i : ℝ) ≤ ((c.r / 2 : Nat) : ℝ) := Nat.cast_le.mpr hi
  rw [sampleSine, cast_r_eq_two_mul_half]
  refine Real.sin_nonneg_of_nonneg_of_le_pi (by positivity) ?_
  rw [div_le_iff₀ (by positivity)]
  nlinarith [Real.pi_pos]

theorem sampleSine_nonpos (c : Config) {i : Nat} (hhalf : c.r / 2 ≤ i) (hi : i < c.r) : sampleSine c.k i ≤ 0 := by
  obtain ⟨j, rfl⟩ := Nat.exists_eq_add_of_le hhalf
  have hj : j ≤ c.r / 2 := by
    have := r_eq_two_mul_half c
    omega
  rw [sampleSine_half_add]
  exact neg_nonpos.mpr (sampleSine_nonneg c hj)

/-- The sine grows over the first quarter of the cycle. -/
theorem sampleSine_le_of_le_quarter (c : Config) {j i : Nat} (hji : j ≤ i) (hi : 2 * i ≤ c.r / 2) :
    sampleSine c.k j ≤ sampleSine c.k i := by
  have hpos := cast_half_pos c
  have hpi := Real.pi_pos
  have hji' : (j : ℝ) ≤ i := Nat.cast_le.mpr hji
  have hi' : 2 * (i : ℝ) ≤ ((c.r / 2 : Nat) : ℝ) := mod_cast hi
  rw [sampleSine, sampleSine, cast_r_eq_two_mul_half]
  have hlow : 0 ≤ 2 * Real.pi * (j : ℝ) / (2 * ((c.r / 2 : Nat) : ℝ)) := by positivity
  refine Real.sin_le_sin_of_le_of_le_pi_div_two (by linarith) ?_ (by gcongr)
  rw [div_le_iff₀ (by positivity)]
  nlinarith

/-- Over the first half of the cycle the sine is the greater the farther the point is from both ends. -/
theorem sampleSine_le_of_add_le_half (c : Config) {j i : Nat} (hji : j ≤ i) (hadd : i + j ≤ c.r / 2) :
    sampleSine c.k j ≤ sampleSine c.k i := by
  rcases Nat.le_total (2 * i) (c.r / 2) with hi | hi
  · exact sampleSine_le_of_le_quarter c hji hi
  · rw [← sampleSine_half_sub c (j := i) (by omega)]
    exact sampleSine_le_of_le_quarter c (by omega) (by omega)

end Sys2Proof.Machine
end

/-! The Sine table: corner entries and symmetries (R71, R76). -/
section
namespace Sys2Proof.Machine

theorem sineEntry_zero (c : Config) : sineEntry c 0 = c.h :=
  sineEntry_eq_of_idealSine_eq c (r_pos c) (by simp [idealSine_eq, sampleSine_zero])

theorem sineEntry_half (c : Config) : sineEntry c (c.r / 2) = c.h :=
  sineEntry_eq_of_idealSine_eq c (half_lt_r c) (by simp [idealSine_eq, sampleSine_half])

theorem sineEntry_quarter {c : Config} (hr : 4 ≤ c.r) : sineEntry c (c.r / 4) = 2 * c.h := by
  refine sineEntry_eq_of_idealSine_eq c (by omega) ?_
  rw [idealSine_eq, sampleSine_quarter hr]
  push_cast
  ring

theorem sineEntry_threeQuarters {c : Config} (hr : 4 ≤ c.r) : sineEntry c (3 * c.r / 4) = 0 :=
  sineEntry_eq_of_idealSine_eq c (by omega) (by simp [idealSine_eq, sampleSine_threeQuarters hr])

/-- R76's `Sine[j] = H + q_j`, over the whole cycle. -/
theorem sineEntry_eq_h_add_round (c : Config) {j : Nat} (hj : j < c.r) :
    (sineEntry c j : ℤ) = c.h + ⌊(c.h : ℝ) * sampleSine c.k j + 1 / 2⌋ := by
  rw [sineEntry_eq_floor c hj, idealSine_eq, add_assoc, Int.floor_natCast_add]

/-- Half-wave symmetry: what one entry lies above `H`, the entry half a cycle later lies below it. -/
theorem sineEntry_half_add (c : Config) {j : Nat} (hj : j < c.r / 2) :
    (sineEntry c (c.r / 2 + j) : ℤ) = 2 * c.h - sineEntry c j := by
  have hr := r_eq_two_mul_half c
  have hexact := sineExact c j (by omega)
  symm
  rw [← abs_sub_idealSine_lt_half_iff c (by omega), idealSine_eq, sampleSine_half_add, ← abs_neg]
  rw [idealSine_eq] at hexact
  convert hexact using 2
  push_cast
  ring

/-- Quarter-wave symmetry. -/
theorem sineEntry_half_sub (c : Config) {j : Nat} (hj : j ≤ c.r / 2) : sineEntry c (c.r / 2 - j) = sineEntry c j := by
  have hr := half_lt_r c
  have h : (sineEntry c (c.r / 2 - j) : ℤ) = sineEntry c j := by
    rw [sineEntry_eq_h_add_round c (by omega), sineEntry_eq_h_add_round c (by omega), sampleSine_half_sub c hj]
  exact_mod_cast h

end Sys2Proof.Machine

namespace Sys2Proof.Proofs
open Sys2Proof.Machine

/-- Settles O33 (R71): the floor is the integer within 1/2, and at the corners the real value is itself an integer. -/
theorem sineEntriesRoundTheRealSine : Obligations.SineEntriesRoundTheRealSine := fun c =>
  ⟨fun _ hi => sineEntry_eq_floor c hi, sineEntry_zero c, sineEntry_half c,
    fun hr => ⟨sineEntry_quarter hr, sineEntry_threeQuarters hr⟩⟩

/-- Settles O38 (R76): the symmetries of the sine pass to the entries; there is no tie by Niven's theorem
(`idealSine_ne_tie`). -/
theorem sineTableSymmetries : Obligations.SineTableSymmetries := by
  intro c
  have hr := half_lt_r c
  refine ⟨fun j hj => sineEntry_eq_h_add_round c (by omega), fun j hj => ?_, fun j hj => sineEntry_half_sub c hj,
    fun i _ m => idealSine_ne_tie c.h_pos i m⟩
  have hround := sineEntry_eq_h_add_round c (j := j) (by omega)
  rw [sampleSine] at hround
  rw [sineEntry_half_add c hj, hround, Config.r]
  ring

end Sys2Proof.Proofs
end

/-! The Square table is high over one band of the first half cycle, set by where the sine exceeds `1/(2H)` (R72, R77). -/
section
namespace Sys2Proof.Machine

theorem h_lt_sineEntry_iff (c : Config) {i : Nat} (hi : i < c.r) :
    c.h < sineEntry c i ↔ 1 / 2 < (c.h : ℝ) * sampleSine c.k i := by
  obtain ⟨hlow, hhigh⟩ := abs_lt.mp (sineExact c i hi)
  rw [idealSine_eq] at hlow hhigh
  constructor
  · intro h
    have : (c.h : ℝ) + 1 ≤ sineEntry c i := mod_cast h
    linarith
  · intro h
    have : (c.h : ℝ) < sineEntry c i := by linarith
    exact_mod_cast this

theorem squareEntry_cases (c : Config) (i : Nat) :
    (c.h < sineEntry c i ∧ squareEntry c i = 2 * c.h) ∨ (sineEntry c i ≤ c.h ∧ squareEntry c i = 0) := by
  unfold squareEntry
  split
  · exact .inl ⟨‹_›, rfl⟩
  · exact .inr ⟨Nat.le_of_not_lt ‹_›, rfl⟩

/-- R77: the entry is high exactly where the sine exceeds `1/(2H)`. -/
theorem squareEntry_eq_high_iff (c : Config) {i : Nat} (hi : i < c.r) :
    squareEntry c i = 2 * c.h ↔ 1 / 2 < (c.h : ℝ) * sampleSine c.k i := by
  rw [← h_lt_sineEntry_iff c hi]
  have := c.h_pos
  rcases squareEntry_cases c i with ⟨hs, e⟩ | ⟨hs, e⟩ <;> omega

theorem squareEntry_eq_zero_of_half_le (c : Config) {i : Nat} (hhalf : c.r / 2 ≤ i) (hi : i < c.r) :
    squareEntry c i = 0 := by
  rcases squareEntry_cases c i with ⟨-, e⟩ | ⟨-, e⟩
  · have hhigh := (squareEntry_eq_high_iff c hi).mp e
    have hneg := mul_nonpos_of_nonneg_of_nonpos (Nat.cast_nonneg (α := ℝ) c.h) (sampleSine_nonpos c hhalf hi)
    linarith
  · exact e

theorem squareEntry_zero (c : Config) : squareEntry c 0 = 0 := by simp [squareEntry, sineEntry_zero]

theorem squareEntry_half (c : Config) : squareEntry c (c.r / 2) = 0 :=
  squareEntry_eq_zero_of_half_le c (le_refl _) (half_lt_r c)

/-- A high entry lies strictly inside the first half cycle. -/
theorem pos_and_lt_half_of_high {c : Config} {i : Nat} (hi : i < c.r) (h : squareEntry c i = 2 * c.h) :
    0 < i ∧ i < c.r / 2 := by
  have hh := c.h_pos
  constructor
  · refine Nat.pos_of_ne_zero fun h0 => ?_
    rw [h0, squareEntry_zero] at h
    omega
  · refine Nat.lt_of_not_le fun hhalf => ?_
    rw [squareEntry_eq_zero_of_half_le c hhalf hi] at h
    omega

/-- Where the sine passes `1/(2H)` between the points `m` and `m + 1`, the high entries are the points farther than `m`
from both ends of the first half cycle. -/
theorem squareEntry_eq_high_iff_band {c : Config} {m i : Nat} (hi : i < c.r) (hm : 2 * m ≤ c.r / 2)
    (hlow : (c.h : ℝ) * sampleSine c.k m ≤ 1 / 2) (hhigh : 1 / 2 < (c.h : ℝ) * sampleSine c.k (m + 1)) :
    squareEntry c i = 2 * c.h ↔ m < i ∧ i + m < c.r / 2 := by
  have hnear (j : Nat) (hj : j ≤ m) : (c.h : ℝ) * sampleSine c.k j ≤ 1 / 2 := by
    refine le_trans ?_ hlow
    gcongr
    exact sampleSine_le_of_add_le_half c hj (by omega)
  constructor
  · intro h
    obtain ⟨-, hhalf⟩ := pos_and_lt_half_of_high hi h
    rw [squareEntry_eq_high_iff c hi] at h
    constructor
    · exact Nat.lt_of_not_le fun him => (hnear i him).not_gt h
    · refine Nat.lt_of_not_le fun him => (hnear (c.r / 2 - i) (by omega)).not_gt ?_
      rwa [sampleSine_half_sub c hhalf.le]
  · rintro ⟨hmi, him⟩
    rw [squareEntry_eq_high_iff c hi]
    refine hhigh.trans_le ?_
    gcongr
    exact sampleSine_le_of_add_le_half c hmi (by omega)

theorem count_between_one_and (n m : Nat) (h : m < n) : Nat.count (fun i => 1 ≤ i ∧ i ≤ m) n = m := by
  have hband : (Finset.range n).filter (fun i => 1 ≤ i ∧ i ≤ m) = Finset.Icc 1 m := by
    ext i
    simp only [Finset.mem_filter, Finset.mem_range, Finset.mem_Icc]
    omega
  rw [Nat.count_eq_card_filter_range, hband, Nat.card_Icc, Nat.add_sub_cancel]

/-- R186: the number of high entries where all inner points of the first half cycle are high. -/
theorem countP_high {c : Config} (h : ∀ i, i < c.r → (squareEntry c i = 2 * c.h ↔ 1 ≤ i ∧ i ≤ c.r / 2 - 1)) :
    (List.range c.r).countP (fun i => squareEntry c i == 2 * c.h) = c.r / 2 - 1 := by
  have hr := half_lt_r c
  rw [← count_between_one_and c.r (c.r / 2 - 1) (by omega)]
  refine List.countP_congr fun i hi => ?_
  rw [beq_iff_eq, decide_eq_true_iff]
  exact h i (List.mem_range.mp hi)

/-- Every entry is either high or low. -/
theorem countP_high_add_countP_low (c : Config) :
    (List.range c.r).countP (fun i => squareEntry c i == 2 * c.h) +
      (List.range c.r).countP (fun i => squareEntry c i == 0) = c.r := by
  have hlow : (List.range c.r).countP (fun i => squareEntry c i == 0) =
      (List.range c.r).countP (fun i => decide ¬(squareEntry c i == 2 * c.h) = true) := by
    refine List.countP_congr fun i _ => ?_
    rw [beq_iff_eq, decide_eq_true_iff, beq_iff_eq]
    have := c.h_pos
    rcases squareEntry_cases c i with ⟨-, e⟩ | ⟨-, e⟩ <;> omega
  rw [hlow, ← List.length_eq_countP_add_countP, List.length_range]

/-- The exact comparison of the table's computation decides where the sine exceeds `1/(2H)`. -/
theorem half_lt_mul_sampleSine_iff {k h i : Nat} (hh : 1 ≤ h) (hi : i < 2 ^ k) :
    1 / 2 < (h : ℝ) * sampleSine k i ↔ sineReaches k h i (h + 1) = true := by
  rw [sineReaches_iff hh hi, idealSine_eq]
  push_cast
  constructor <;> intro h <;> linarith

theorem k_eq_seven {c : Config} (hr : c.r = 128) : c.k = 7 := Nat.pow_right_injective (le_refl 2) hr

/-- R77's worked cases: at `R = 128` the exact comparisons at the points `m` and `m + 1` decide the band of high entries. -/
theorem squareEntry_eq_high_iff_of_sineReaches {c : Config} {m i : Nat} (hr : c.r = 128) (hm : m ≤ 32) (hi : i < 128)
    (hlow : sineReaches 7 c.h m (c.h + 1) = false) (hhigh : sineReaches 7 c.h (m + 1) (c.h + 1) = true) :
    squareEntry c i = 2 * c.h ↔ m < i ∧ i + m < 64 := by
  rw [← Bool.not_eq_true, ← half_lt_mul_sampleSine_iff c.h_pos (by omega), not_lt, ← k_eq_seven hr] at hlow
  rw [← half_lt_mul_sampleSine_iff c.h_pos (by omega), ← k_eq_seven hr] at hhigh
  rw [squareEntry_eq_high_iff_band (hr ▸ hi) (by omega) hlow hhigh, hr]

/-- R77: at `R = 128` the first sample exceeds `1/(2H)` from `H = 11` on. -/
theorem half_lt_mul_sampleSine_seven_one_iff (h : Nat) : 1 / 2 < (h : ℝ) * sampleSine 7 1 ↔ 11 ≤ h := by
  have hat11 : 1 / 2 < ((11 : Nat) : ℝ) * sampleSine 7 1 :=
    (half_lt_mul_sampleSine_iff (by decide) (by decide)).mpr (by decide)
  have hat10 : ¬1 / 2 < ((10 : Nat) : ℝ) * sampleSine 7 1 := by
    rw [half_lt_mul_sampleSine_iff (by decide) (by decide)]
    decide
  have hpos : 0 ≤ sampleSine 7 1 := by
    push_cast at hat11
    linarith
  constructor
  · intro hhigh
    refine Nat.lt_of_not_le fun hle => hat10 (hhigh.trans_le ?_)
    gcongr
  · intro hle
    refine hat11.trans_le ?_
    gcongr

end Sys2Proof.Machine

namespace Sys2Proof.Proofs
open Sys2Proof.Machine

/-- Settles O34 (R72): in the second half cycle, and at 0, the sine is not positive, so the rounded entry is not above `H`. -/
theorem squareComparesTheRoundedSine : Obligations.SquareComparesTheRoundedSine := fun c =>
  ⟨fun _ => rfl, squareEntry_zero c, squareEntry_half c,
    fun _ hhalf hi => squareEntry_eq_zero_of_half_le c hhalf hi⟩

/-- Settles O39 (R77, R186): the closed form is `squareEntry_eq_high_iff`; the other clauses are bands of
`squareEntry_eq_high_iff_band`, and for the worked `H` the exact comparisons decide where the band ends. -/
theorem squareClosedForm : Obligations.SquareClosedForm := by
  intro c
  refine ⟨fun i hi => ⟨⟨fun h => ?_, fun ⟨_, _, h⟩ => (squareEntry_eq_high_iff c hi).mpr h⟩, ?_⟩, fun hone => ?_,
    fun hr => ?_⟩
  · obtain ⟨hpos, hhalf⟩ := pos_and_lt_half_of_high hi h
    exact ⟨hpos, hhalf, (squareEntry_eq_high_iff c hi).mp h⟩
  · rcases squareEntry_cases c i with ⟨-, e⟩ | ⟨-, e⟩
    · exact .inl e
    · exact .inr e
  · rw [← sampleSine_one] at hone
    have hband (i : Nat) (hi : i < c.r) : squareEntry c i = 2 * c.h ↔ 1 ≤ i ∧ i ≤ c.r / 2 - 1 := by
      rw [squareEntry_eq_high_iff_band hi (m := 0) (by omega) (by simp [sampleSine_zero]) hone]
      omega
    have hcount := countP_high hband
    have htotal := countP_high_add_countP_low c
    have heven := r_eq_two_mul_half c
    have htwo := two_le_r c
    exact ⟨hband, hcount, by omega⟩
  · refine ⟨?_, fun h10 i hi => ?_, fun h1 i hi => ?_⟩
    · rw [← sampleSine_one, k_eq_seven hr]
      exact half_lt_mul_sampleSine_seven_one_iff c.h
    · have hband := squareEntry_eq_high_iff_of_sineReaches hr (m := 1) (by decide) hi
      rw [h10] at hband
      rw [hband (by decide) (by decide)]
      omega
    · have hband := squareEntry_eq_high_iff_of_sineReaches hr (m := 10) (by decide) hi
      rw [h1] at hband
      rw [hband (by decide) (by decide)]
      omega

end Sys2Proof.Proofs
end

/-! The two ramps: floors of the real ramps, with their ends (R73, R74). -/
section
namespace Sys2Proof.Machine

theorem two_mul_h_mul_half (c : Config) : 2 * c.h * (c.r / 2) = c.h * c.r := by
  conv_rhs => rw [r_eq_two_mul_half c]
  ring

theorem sawtoothEntry_eq_floor (c : Config) (i : Nat) :
    (sawtoothEntry c i : ℤ) = ⌊(2 : ℚ) * (c.h : ℚ) * (i : ℚ) / (c.r : ℚ)⌋ := by
  have h : (2 : ℚ) * (c.h : ℚ) * (i : ℚ) = ((2 * c.h * i : Nat) : ℚ) := by push_cast; rfl
  rw [h, Rat.floor_natCast_div_natCast, sawtoothEntry, Int.natCast_div]

theorem sawtoothEntry_mono (c : Config) {i j : Nat} (h : i ≤ j) : sawtoothEntry c i ≤ sawtoothEntry c j :=
  Nat.div_le_div_right (Nat.mul_le_mul_left _ h)

theorem sawtoothEntry_zero (c : Config) : sawtoothEntry c 0 = 0 := by simp [sawtoothEntry]

theorem sawtoothEntry_half (c : Config) : sawtoothEntry c (c.r / 2) = c.h := by
  rw [sawtoothEntry, two_mul_h_mul_half, Nat.mul_div_cancel _ (r_pos c)]

/-- The sawtooth never reaches full scale. -/
theorem sawtoothEntry_lt (c : Config) {i : Nat} (hi : i < c.r) : sawtoothEntry c i < 2 * c.h := by
  rw [sawtoothEntry, Nat.div_lt_iff_lt_mul (r_pos c)]
  have := c.h_pos
  gcongr

theorem triangleEntry_eq_floor (c : Config) (i : Nat) :
    (triangleEntry c i : ℤ) = ⌊(2 : ℚ) * (c.h : ℚ) * (min i (c.r - i) : ℕ) / ((c.r : ℚ) / 2)⌋ := by
  have h : (2 : ℚ) * (c.h : ℚ) * (min i (c.r - i) : ℕ) / ((c.r : ℚ) / 2) =
      ((4 * c.h * min i (c.r - i) : Nat) : ℚ) / (c.r : ℚ) := by
    rw [div_div_eq_mul_div]
    push_cast
    ring
  rw [h, Rat.floor_natCast_div_natCast, triangleEntry, Int.natCast_div]

theorem triangleEntry_zero (c : Config) : triangleEntry c 0 = 0 := by simp [triangleEntry]

theorem triangleEntry_half (c : Config) : triangleEntry c (c.r / 2) = 2 * c.h := by
  have hmin : min (c.r / 2) (c.r - c.r / 2) = c.r / 2 := by omega
  have hpeak : 4 * c.h * (c.r / 2) = 2 * c.h * c.r := by
    rw [mul_assoc 2, ← two_mul_h_mul_half]
    ring
  rw [triangleEntry, hmin, hpeak, Nat.mul_div_cancel _ (r_pos c)]

theorem triangleEntry_mirror (c : Config) {i : Nat} (hi : i ≤ c.r) : triangleEntry c i = triangleEntry c (c.r - i) := by
  rw [triangleEntry, triangleEntry, Nat.sub_sub_self hi, Nat.min_comm]

end Sys2Proof.Machine

namespace Sys2Proof.Proofs
open Sys2Proof.Machine

/-- Settles O35 (R73): the quotient of integers is the floor of the ramp; with `2H < R` entries 0 and 1 are both 0. -/
theorem sawtoothIsTheFlooredRamp : Obligations.SawtoothIsTheFlooredRamp := by
  intro c
  refine ⟨fun i => ⟨sawtoothEntry_eq_floor c i, rfl⟩, fun _ _ h => sawtoothEntry_mono c h, sawtoothEntry_zero c,
    sawtoothEntry_half c, fun _ hi => Nat.le_sub_one_of_lt (sawtoothEntry_lt c hi), fun hslow => ⟨0, two_le_r c, ?_⟩⟩
  rw [sawtoothEntry_zero, zero_add, sawtoothEntry, mul_one, Nat.div_eq_of_lt hslow]

/-- Settles O36 (R74): the quotient of integers is the floor of the ramp, and `min i (R - i)` is the same for `i` and
`R - i`. -/
theorem triangleIsTheFlooredSymmetricRamp : Obligations.TriangleIsTheFlooredSymmetricRamp := fun c =>
  ⟨fun i _ => ⟨triangleEntry_eq_floor c i, rfl⟩, triangleEntry_zero c, triangleEntry_half c,
    fun _ _ hi => triangleEntry_mirror c hi.le, fun hdvd _ => Nat.div_mul_cancel (hdvd.mul_right _)⟩

/-- Settles O37 (R75): the bound of each table, and full scale fits in `W` bits. -/
theorem tableEntriesAreInRange : Obligations.TableEntriesAreInRange := by
  intro c i hi
  refine ⟨sineEntry_le c i, ?_, Nat.le_sub_one_of_lt (sawtoothEntry_lt c hi), triangleEntry_le c i,
    fun w => ⟨lutRead_le c w hi, (lutRead_le c w hi).trans_lt (two_mul_h_lt c)⟩⟩
  rcases squareEntry_cases c i with ⟨-, e⟩ | ⟨-, e⟩
  · exact .inr e
  · exact .inl e

end Sys2Proof.Proofs
end

/-! The tables exist for every legal `(K, H)` and are a function of them (R78, R80); BUILD makes them (R70, R150). -/
section
namespace Sys2Proof.Machine

theorem sine_eq_of_k_h {c c' : Config} (hk : c.k = c'.k) (hh : c.h = c'.h) : c.sine = c'.sine := by
  rw [sine_eq_sineTable, sine_eq_sineTable, hk, hh]

/-- R78: no table depends on the sink's period. -/
theorem lutRead_eq_of_k_h {c c' : Config} (hk : c.k = c'.k) (hh : c.h = c'.h) (w : WaveCode) (i : Nat) :
    lutRead c w i = lutRead c' w i := by
  have hs : sineEntry c i = sineEntry c' i := by rw [sineEntry, sineEntry, sine_eq_of_k_h hk hh]
  have hr : c.r = c'.r := by rw [Config.r, Config.r, hk]
  cases hw : waveformOf w <;> simp [lutRead, tableEntry, squareEntry, sawtoothEntry, triangleEntry, hw, hs, hr, hh]

theorem resolutionWellFormed_iff (r : Nat) : resolutionWellFormed r = true ↔ ∃ k, 1 ≤ k ∧ r = 2 ^ k := by
  rw [resolutionWellFormed, Bool.and_eq_true, decide_eq_true_iff, decide_eq_true_iff]
  constructor
  · rintro ⟨htwo, hpow⟩
    refine ⟨Nat.log2 r, Nat.pos_of_ne_zero fun h0 => ?_, hpow.symm⟩
    rw [h0] at hpow
    omega
  · rintro ⟨k, hk, rfl⟩
    exact ⟨Nat.pow_le_pow_right Nat.two_pos hk, by rw [Nat.log2_two_pow]⟩

theorem halfWellFormed_iff (h : Nat) : halfWellFormed h = true ↔ 1 ≤ h := decide_eq_true_iff

/-- R76: comparing a supplied table with the computed one decides R80's property. -/
theorem sineTableWellFormed_iff {k h : Nat} (hh : 1 ≤ h) (sine : List Nat) :
    sineTableWellFormed (2 ^ k) h sine = true ↔ SineTableExact k h sine := by
  rw [sineTableWellFormed, decide_eq_true_iff, Nat.log2_two_pow]
  constructor
  · rintro rfl
    exact sineTable_exact hh
  · exact eq_sineTable_of_exact hh

theorem build_of_illegal_resolution {r : Nat} (hr : ¬∃ k, 1 ≤ k ∧ r = 2 ^ k) (h : Nat) :
    build r h = .error (.configurationError r) := by
  rw [← resolutionWellFormed_iff] at hr
  rcases build_cases r h with ⟨-, e⟩ | ⟨hr', -⟩ | ⟨hr', -⟩
  · exact e
  · exact absurd hr' hr
  · exact absurd hr' hr

theorem build_of_illegal_half {r h : Nat} (hr : ∃ k, 1 ≤ k ∧ r = 2 ^ k) (hh : h < 1) :
    build r h = .error (.configurationError h) := by
  rw [← resolutionWellFormed_iff] at hr
  rw [← not_le, ← halfWellFormed_iff] at hh
  rcases build_cases r h with ⟨hr', -⟩ | ⟨-, -, e⟩ | ⟨-, hh', -⟩
  · simp [hr] at hr'
  · exact e
  · exact absurd hh' hh

theorem build_of_legal {k h : Nat} (hk : 1 ≤ k) (hh : 1 ≤ h) :
    ∃ c, build (2 ^ k) h = .ok c ∧ c.k = k ∧ c.h = h ∧ c.p = 2 * h := by
  have hr : resolutionWellFormed (2 ^ k) = true := (resolutionWellFormed_iff _).mpr ⟨k, hk, rfl⟩
  have hh' : halfWellFormed h = true := (halfWellFormed_iff h).mpr hh
  rcases build_cases (2 ^ k) h with ⟨e, -⟩ | ⟨-, e, -⟩ | ⟨-, -, c, e⟩
  · simp [hr] at e
  · simp [hh'] at e
  · rw [Nat.log2_two_pow] at e
    exact ⟨c, e⟩

theorem buildFrom_of_build_error {r h : Nat} {f : Fault} (he : build r h = .error f) (sine : List Nat) :
    buildFrom r h sine = .error f := by
  simp only [buildFrom, he]

theorem buildFrom_of_build_ok {r h : Nat} {c : Config} (he : build r h = .ok c) (sine : List Nat) :
    buildFrom r h sine = if sineTableWellFormed r h sine then .ok c else .error .sineTableRefused := by
  simp only [buildFrom, he]

/-- R70's corner case: at `R = 2` every entry stands at 0 or at `R/2`, where each table has its corner entries. -/
theorem lutWord_of_r_eq_two {c : Config} (hr : c.r = 2) :
    [0, 1, 2, 3, 4, 5, 6, 7].map (lutWord c) =
      [some c.h, some c.h, some 0, some 0, some 0, some c.h, some 0, some (2 * c.h)] := by
  have hhalf : c.r / 2 = 1 := by rw [hr]
  have hstart := lutWord_tables c (r_pos c)
  have hmiddle := lutWord_tables c (half_lt_r c)
  rw [sineEntry_zero, squareEntry_zero, sawtoothEntry_zero, triangleEntry_zero, hr] at hstart
  rw [sineEntry_half, squareEntry_half, sawtoothEntry_half, triangleEntry_half, hhalf, hr] at hmiddle
  obtain ⟨h0, h2, h4, h6⟩ := hstart
  obtain ⟨h1, h3, h5, h7⟩ := hmiddle
  simp only [List.map_cons, List.map_nil, h0, h1, h2, h3, h4, h5, h6, h7]

end Sys2Proof.Machine

namespace Sys2Proof.Proofs
open Sys2Proof.Machine

/-- Settles O40 (R76, R78, R80): the computed table is one, and the tables of any two with one `(K, H)` are that one. -/
theorem sineTableExistsAndIsUnique : Obligations.SineTableExistsAndIsUnique :=
  ⟨fun k h hk hh => ⟨Config.ofParameters k h hk hh, rfl, rfl, rfl⟩,
    fun c _ hi n => abs_sub_idealSine_lt_half_iff c hi n,
    fun _ _ hk hh => ⟨sine_eq_of_k_h hk hh, lutRead_eq_of_k_h hk hh⟩⟩

/-- Settles O42 (R70, R150, R80): the checks are the legal parameters, and a supplied table passes exactly if it is the
computed one. -/
theorem buildRefusesExactlyTheIllegalParameters : Obligations.BuildRefusesExactlyTheIllegalParameters := by
  refine ⟨fun r h => ⟨fun hr => build_of_illegal_resolution hr h, build_of_illegal_half, ?_⟩, fun h hh => ?_,
    fun r h sine => ⟨fun hr => buildFrom_of_build_error (build_of_illegal_resolution hr h) sine,
      fun hr hh => buildFrom_of_build_error (build_of_illegal_half hr hh) sine, ?_⟩⟩
  · rintro ⟨k, hk, rfl⟩ hh
    obtain ⟨c, hbuild, rfl, hch, hcp⟩ := build_of_legal hk hh
    exact ⟨c, hbuild, rfl, hch, hcp⟩
  · obtain ⟨c, hbuild, hck, rfl, -⟩ := build_of_legal (le_refl 1) hh
    exact ⟨c, hbuild, lutWord_of_r_eq_two (by rw [Config.r, hck]; rfl)⟩
  · rintro ⟨k, hk, rfl⟩ hh
    obtain ⟨c, hbuild, rfl, rfl, -⟩ := build_of_legal hk hh
    rw [buildFrom_of_build_ok hbuild]
    constructor
    · intro hexact
      have hsine : c.sine = sine := (sine_eq_sineTable c).trans (eq_sineTable_of_exact hh hexact).symm
      exact ⟨c, if_pos ((sineTableWellFormed_iff hh sine).mpr hexact), hbuild, hsine⟩
    · intro hno
      exact if_neg (mt (sineTableWellFormed_iff hh sine).mp hno)

end Sys2Proof.Proofs
end

/-! TICK as an operation: its word and its two answers (R55, R90). -/
section
namespace Sys2Proof

theorem operation_of_tick {q : Ports} (hrst : q.rst = false) (htick : q.tick = true) (hwe : q.we = false) :
    operation q = .tick := by
  simp [operation, hrst, htick, hwe]

/-- The words with `{rst, tick, we} = 010` spell TICK (R55). -/
theorem decode_of_tickField {iw : StepWord} (h : iw.extractLsb' 19 3 = 0b010) : decode iw = .tick :=
  operation_of_tick (getLsbD_of_field h (i := 2) (by decide)) (getLsbD_of_field h (i := 1) (by decide))
    (getLsbD_of_field h (i := 0) (by decide))

end Sys2Proof

namespace Sys2Proof.Machine

theorem exec_tick (s : State) : exec .tick s = .next (tick s) := rfl

theorem exec_tick_hold {s : State} (h : s.tcnt.toNat + 1 < s.ndiv.toNat) : exec .tick s = .next (hold s) := by
  rw [exec_tick, tick_eq_hold h]

theorem exec_tick_rollover {s : State} (h : s.ndiv.toNat ≤ s.tcnt.toNat + 1) : exec .tick s = .next (rollover s) := by
  rw [exec_tick, tick_eq_rollover h]

end Sys2Proof.Machine

namespace Sys2Proof.Proofs
open Sys2Proof.Machine

/-- Settles O13 (R90): the two branches of the comparison are `hold` and `rollover`. -/
theorem tickHoldsOrRollsOver : Obligations.TickHoldsOrRollsOver := by
  refine ⟨fun s => ?_, fun iw h => decode_of_tickField h, by decide⟩
  split_ifs with hc
  · exact exec_tick_hold hc
  · exact exec_tick_rollover (Nat.not_lt.mp hc)

/-- Settles O14 (R91): the next state is `hold s`, whose counter does not wrap. -/
theorem tickHoldChangesOnlyTheCounter : Obligations.TickHoldChangesOnlyTheCounter :=
  fun s hc => ⟨hold s, exec_tick_hold hc, hold_tcnt_toNat hc, rfl⟩

/-- Settles O15 (R92): the next state is `rollover s`; of the two answers of a TICK only that one moves the index. -/
theorem tickRolloverAdvancesTheIndexByOne : Obligations.TickRolloverAdvancesTheIndexByOne := by
  refine ⟨fun s hc => ⟨rollover s, exec_tick_rollover hc, rfl, rfl, rfl⟩, fun s t h => ?_⟩
  obtain rfl : tick s = t := Host.Outcome.next.inj h
  rcases tick_cases s with ⟨-, e⟩ | ⟨-, e⟩ <;> rw [e]
  · exact .inl rfl
  · exact .inr rfl

/-- Settles O26 (R96): each write completes before the TICK, which compares with and reads the registers it then finds. -/
theorem parametersAreSampledAtEveryTick : Obligations.ParametersAreSampledAtEveryTick := by
  refine ⟨fun s n hc => ?lowered, fun s n hc => ?raised, fun s w a => ?kept, fun s w a hc => ⟨?wave, ?amp⟩⟩
  case lowered =>
    rw [← clampN_toNat] at hc
    exact ⟨writeNdiv n (lowerStrobe s), _, rfl, exec_tick_rollover hc, rfl, rfl, rfl⟩
  case raised =>
    rw [← clampN_toNat] at hc
    exact ⟨writeNdiv n (lowerStrobe s), _, rfl, exec_tick_hold hc, rfl, hold_tcnt_toNat hc, rfl, rfl⟩
  case kept =>
    exact ⟨writeWave w (lowerStrobe s), writeAmp a (lowerStrobe s), rfl, rfl, rfl, rfl, rfl, rfl, fun hc =>
      ⟨_, _, exec_tick_hold hc, exec_tick_hold hc, rfl, rfl⟩⟩
  case wave => exact ⟨writeWave w (lowerStrobe s), _, rfl, exec_tick_rollover hc, rfl⟩
  case amp =>
    rw [← clampA_toNat]
    exact ⟨writeAmp a (lowerStrobe s), _, rfl, exec_tick_rollover hc, rfl⟩

end Sys2Proof.Proofs
end

/-! One sink write per rollover (R61, R94). -/
section
namespace Sys2Proof.Machine

/-- The strobe tells whether the stepper part rolled over, and with it whether the trace grew. -/
theorem stepperPart_sinkWrite (i : Instr) (s : State) :
    ((stepperPart i s).dutyStb = true ↔ ticks i = true ∧ s.ndiv.toNat ≤ s.tcnt.toNat + 1) ∧
      (stepperPart i s).sink = if (stepperPart i s).dutyStb then s.sink ++ [(stepperPart i s).duty] else s.sink := by
  by_cases hr : i = .reset
  · subst hr
    simp [stepperPart_reset, ticks]
  · rcases stepperPart_cases hr s with ⟨ht, e⟩ | ⟨ht, hc, e⟩ | ⟨ht, hc, e⟩ <;> rw [e]
    · simp [ht]
    · simp [hc]
    · simp [ht, hc]

end Sys2Proof.Machine

namespace Sys2Proof.Proofs
open Sys2Proof.Machine

/-- Settles O48 (R61, R94): the sink write is the stepper part's, and the port part leaves the strobe, DUTY and the trace. -/
theorem oneSinkWritePerRollover : Obligations.OneSinkWritePerRollover := by
  intro i s t he
  obtain ⟨hstb, hsink⟩ := stepperPart_sinkWrite i s
  rw [eq_of_exec_next he, portPart_dutyStb, portPart_duty, portPart_sink]
  exact ⟨hstb, fun h => by rw [hsink, if_pos h], fun h => by rw [hsink, h]; rfl⟩

end Sys2Proof.Proofs
end

/-! A run that consumes every word presented. -/
section
namespace Sys2Proof.Machine

@[simp] theorem stepperPart_inputs (i : Instr) (s : State) : (stepperPart i s).inputs = s.inputs := by
  by_cases hr : i = .reset
  · subst hr
    rfl
  · rcases stepperPart_cases hr s with ⟨-, e⟩ | ⟨-, -, e⟩ | ⟨-, -, e⟩ <;> simp [e]

theorem inputs_eq_of_exec_next {i : Instr} {s t : State} (h : exec i s = .next t) : t.inputs = s.inputs := by
  rw [eq_of_exec_next h, portPart_inputs, stepperPart_inputs]

/-- `Runs l s t`: the operations the words of `l` spell, fetched one after another, lead from `s` to `t`. -/
inductive Runs : List StepWord → State → State → Prop where
  | nil (s : State) : Runs [] s s
  | cons {iw : StepWord} {rest : List StepWord} {s u t : State} :
      exec (decode iw) { s with inputs := rest } = .next u → Runs rest u t → Runs (iw :: rest) s t

/-- Every operation completes, so a run reaches the end of the words presented. -/
theorem exists_run_inputs (s : State) :
    ∃ t, core.run s.inputs.length s = .next t ∧ t.inputs = [] ∧ Runs s.inputs s t := by
  generalize hl : s.inputs = l
  induction l generalizing s with
  | nil => exact ⟨s, rfl, hl, .nil s⟩
  | cons iw rest ih =>
    obtain ⟨u, he⟩ := exec_completes (decode iw) { s with inputs := rest }
    obtain ⟨t, hrun, hend, hruns⟩ := ih u (inputs_eq_of_exec_next he)
    refine ⟨t, ?_, hend, .cons he hruns⟩
    rw [List.length_cons, run_succ ((step_of_inputs_cons hl).trans he), hrun]

end Sys2Proof.Machine
end

/-! Frequency division (R93): while NDIV is not written, `TCNT + NDIV · rollovers` counts the TICKs. -/
section
namespace Sys2Proof.Machine

/-- The counter and the index are within their cycles. -/
structure InCycle (s : State) : Prop where
  tcnt_lt : s.tcnt.toNat < s.ndiv.toNat
  tidx_lt : s.tidx < s.cfg.r

theorem InCycle.fetched {s : State} (h : InCycle s) (l : List StepWord) : InCycle { s with inputs := l } :=
  ⟨h.tcnt_lt, h.tidx_lt⟩

/-- `t` is `m` TICKs and `k` rollovers after `s`, with NDIV as it was. -/
structure Advances (s : State) (m k : Nat) (t : State) : Prop where
  cfg : t.cfg = s.cfg
  ndiv : t.ndiv = s.ndiv
  tcnt_lt : t.tcnt.toNat < s.ndiv.toNat
  tcnt : t.tcnt.toNat + s.ndiv.toNat * k = s.tcnt.toNat + m
  tidx : t.tidx = (s.tidx + k) % s.cfg.r
  sink : t.sink.length = s.sink.length + k

theorem Advances.refl {s : State} (h : InCycle s) : Advances s 0 0 s :=
  ⟨rfl, rfl, h.tcnt_lt, rfl, (Nat.mod_eq_of_lt h.tidx_lt).symm, rfl⟩

theorem Advances.trans {s u t : State} {m m' k k' : Nat} (h : Advances s m k u) (h' : Advances u m' k' t) :
    Advances s (m + m') (k + k') t where
  cfg := h'.cfg.trans h.cfg
  ndiv := h'.ndiv.trans h.ndiv
  tcnt_lt := h.ndiv ▸ h'.tcnt_lt
  tcnt := by
    have hfirst := h.tcnt
    have hsecond := h'.tcnt
    rw [h.ndiv] at hsecond
    rw [Nat.mul_add]
    omega
  tidx := by rw [h'.tidx, h.tidx, h.cfg, Nat.mod_add_mod, Nat.add_assoc]
  sink := by rw [h'.sink, h.sink, Nat.add_assoc]

theorem Advances.inCycle {s t : State} {m k : Nat} (h : Advances s m k t) : InCycle t where
  tcnt_lt := h.ndiv ▸ h.tcnt_lt
  tidx_lt := by
    rw [h.tidx, h.cfg]
    exact Nat.mod_lt _ (r_pos s.cfg)

/-- Fetching a word counts as nothing. -/
theorem Advances.of_fetched {s t : State} {l : List StepWord} {m k : Nat} (h : Advances { s with inputs := l } m k t) :
    Advances s m k t :=
  ⟨h.cfg, h.ndiv, h.tcnt_lt, h.tcnt, h.tidx, h.sink⟩

/-- The number of rollovers is the quotient by NDIV and the counter the remainder. -/
theorem Advances.div_mod {s t : State} {m k : Nat} (h : Advances s m k t) :
    (s.tcnt.toNat + m) / s.ndiv.toNat = k ∧ (s.tcnt.toNat + m) % s.ndiv.toNat = t.tcnt.toNat :=
  (Nat.div_mod_unique (Nat.zero_lt_of_lt h.tcnt_lt)).mpr ⟨h.tcnt, h.tcnt_lt⟩

theorem advances_lowerStrobe {s : State} (h : InCycle s) : Advances s 0 0 (lowerStrobe s) :=
  ⟨rfl, rfl, h.tcnt_lt, rfl, (Nat.mod_eq_of_lt h.tidx_lt).symm, rfl⟩

theorem advances_hold {s : State} (h : InCycle s) (hc : s.tcnt.toNat + 1 < s.ndiv.toNat) : Advances s 1 0 (hold s) where
  cfg := rfl
  ndiv := rfl
  tcnt_lt := by rwa [hold_tcnt_toNat hc]
  tcnt := hold_tcnt_toNat hc
  tidx := (Nat.mod_eq_of_lt h.tidx_lt).symm
  sink := rfl

/-- Below NDIV, a counter that cannot count up without reaching NDIV is `NDIV - 1`. -/
theorem advances_rollover {s : State} (h : InCycle s) (hc : s.ndiv.toNat ≤ s.tcnt.toNat + 1) :
    Advances s 1 1 (rollover s) where
  cfg := rfl
  ndiv := rfl
  tcnt_lt := Nat.zero_lt_of_lt h.tcnt_lt
  tcnt := by
    have := h.tcnt_lt
    have hzero : (rollover s).tcnt.toNat = 0 := rfl
    omega
  tidx := rfl
  sink := by simp

theorem advances_stepperPart {i : Instr} {s : State} (h : InCycle s) (hr : i ≠ .reset) :
    ∃ k, Advances s (if ticks i then 1 else 0) k (stepperPart i s) := by
  rcases stepperPart_cases hr s with ⟨ht, e⟩ | ⟨ht, hc, e⟩ | ⟨ht, hc, e⟩ <;> rw [ht, e]
  · exact ⟨0, advances_lowerStrobe h⟩
  · exact ⟨0, advances_hold h hc⟩
  · exact ⟨1, advances_rollover h hc⟩

theorem portPart_ndiv {i : Instr} (h : setsNdiv i = false) (s : State) : (portPart i s).ndiv = s.ndiv := by
  cases i with
  | wrNdiv | wrAll | tWrNdiv | tWrAll => cases h
  | _ => rfl

theorem advances_portPart {i : Instr} {s t : State} {m k : Nat} (h : Advances s m k t) (hi : setsNdiv i = false) :
    Advances s m k (portPart i t) := by
  obtain ⟨hcfg, hndiv, hlt, htcnt, htidx, hsink⟩ := h
  constructor <;> simpa [portPart_ndiv hi]

theorem ne_reset_of_not_setsNdiv {i : Instr} (h : setsNdiv i = false) : i ≠ .reset := by
  rintro rfl
  cases h

theorem advances_of_exec_next {i : Instr} {s t : State} (h : InCycle s) (hi : setsNdiv i = false)
    (he : exec i s = .next t) : ∃ k, Advances s (if ticks i then 1 else 0) k t := by
  rw [eq_of_exec_next he]
  obtain ⟨k, hk⟩ := advances_stepperPart h (ne_reset_of_not_setsNdiv hi)
  exact ⟨k, advances_portPart hk hi⟩

/-- A run of words that do not write NDIV advances by its TICKs. -/
theorem Runs.advances {l : List StepWord} {s t : State} (hrun : Runs l s t) (h : InCycle s)
    (hw : ∀ iw ∈ l, setsNdiv (decode iw) = false) : ∃ k, Advances s (l.countP fun iw => ticks (decode iw)) k t := by
  induction hrun with
  | nil s => exact ⟨0, .refl h⟩
  | cons he _ ih =>
    obtain ⟨hiw, hrest⟩ := List.forall_mem_cons.mp hw
    obtain ⟨k, hk⟩ := advances_of_exec_next (h.fetched _) hiw he
    obtain ⟨k', hk'⟩ := ih hk.inCycle hrest
    rw [List.countP_cons, Nat.add_comm]
    exact ⟨k + k', hk.of_fetched.trans hk'⟩

end Sys2Proof.Machine

namespace Sys2Proof.Proofs
open Sys2Proof.Machine

/-- Settles O52 (R93): the run advances by its TICKs, and division by NDIV gives the rollovers and the counter. -/
theorem frequencyDivision : Obligations.FrequencyDivision := by
  rintro s ⟨-, -, -, -, hidx, -⟩ hcnt hw
  obtain ⟨t, hrun, hend, hruns⟩ := exists_run_inputs s
  obtain ⟨k, hadv⟩ := hruns.advances ⟨hcnt, hidx⟩ hw
  obtain ⟨hdiv, hmod⟩ := hadv.div_mod
  refine ⟨t, _, rfl, hrun, hend, hadv.ndiv, hmod.symm, hdiv ▸ hadv.tidx, hdiv ▸ hadv.sink, fun hm => ?_⟩
  rw [hm, Nat.add_mul_div_right _ _ (Nat.zero_lt_of_lt hcnt), Nat.div_eq_of_lt hcnt, Nat.zero_add] at hdiv
  rw [hm, Nat.add_mul_mod_self_right, Nat.mod_eq_of_lt hcnt] at hmod
  subst hdiv
  refine ⟨?_, BitVec.eq_of_toNat_eq hmod.symm, hadv.sink⟩
  rw [hadv.tidx, Nat.add_mod_right, Nat.mod_eq_of_lt hidx]

end Sys2Proof.Proofs
end

/-! The samples a run of TICK words emits (R93, R113, R116). -/
section
namespace Sys2Proof.Machine

/-- The value the rollover number `j` (from 0) after `s` emits while WAVE and AMP are not written. -/
def sampleAfter (s : State) (j : Nat) : Nat :=
  clip s.cfg (scale (lutRead s.cfg s.wave ((s.tidx + 1 + j) % s.cfg.r)) s.amp.toNat)

/-- `t` reads the parameters that `s` reads, and the `k` samples after `s` are on its trace. -/
structure Emits (s : State) (k : Nat) (t : State) : Prop where
  wave : t.wave = s.wave
  amp : t.amp = s.amp
  sink : t.sink = s.sink ++ (List.range k).map (sampleAfter s)

theorem sampleAfter_of_advances {s t : State} {m k : Nat} (ha : Advances s m k t) (he : Emits s k t) (j : Nat) :
    sampleAfter t j = sampleAfter s (k + j) := by
  have hidx : (t.tidx + 1 + j) % s.cfg.r = (s.tidx + 1 + (k + j)) % s.cfg.r := by
    rw [ha.tidx, Nat.add_assoc, Nat.mod_add_mod]
    congr 1
    omega
  rw [sampleAfter, ha.cfg, he.wave, he.amp, hidx, sampleAfter]

theorem Emits.refl (s : State) : Emits s 0 s := ⟨rfl, rfl, (List.append_nil s.sink).symm⟩

theorem Emits.of_fetched {s t : State} {l : List StepWord} {k : Nat} (h : Emits { s with inputs := l } k t) : Emits s k t :=
  ⟨h.wave, h.amp, h.sink⟩

theorem Emits.trans {s u t : State} {m k k' : Nat} (ha : Advances s m k u) (h : Emits s k u) (h' : Emits u k' t) :
    Emits s (k + k') t where
  wave := h'.wave.trans h.wave
  amp := h'.amp.trans h.amp
  sink := by
    have hnew : (List.range k').map (sampleAfter u) = ((List.range k').map (k + ·)).map (sampleAfter s) := by
      rw [List.map_map]
      exact List.map_congr_left fun j _ => sampleAfter_of_advances ha h j
    rw [h'.sink, h.sink, hnew, List.append_assoc, ← List.map_append, ← List.range_add]

theorem exec_tick_emits {s t : State} (h : InCycle s) (he : exec .tick s = .next t) :
    ∃ k, Advances s 1 k t ∧ Emits s k t := by
  obtain rfl : tick s = t := Host.Outcome.next.inj he
  rcases tick_cases s with ⟨hc, e⟩ | ⟨hc, e⟩ <;> rw [e]
  · exact ⟨0, advances_hold h hc, rfl, rfl, (List.append_nil s.sink).symm⟩
  · exact ⟨1, advances_rollover h hc, rfl, rfl, rfl⟩

/-- A run of TICK words emits one sample at each of its rollovers. -/
theorem Runs.emits {l : List StepWord} {s t : State} (hrun : Runs l s t) (h : InCycle s)
    (hw : ∀ iw ∈ l, decode iw = .tick) : ∃ k, Advances s l.length k t ∧ Emits s k t := by
  induction hrun with
  | nil s => exact ⟨0, .refl h, .refl s⟩
  | cons he _ ih =>
    obtain ⟨hiw, hrest⟩ := List.forall_mem_cons.mp hw
    rw [hiw] at he
    obtain ⟨k, ha, hk⟩ := exec_tick_emits (h.fetched _) he
    obtain ⟨k', ha', hk'⟩ := ih ha.inCycle hrest
    rw [List.length_cons, Nat.add_comm]
    exact ⟨k + k', ha.of_fetched.trans ha', hk.of_fetched.trans ha.of_fetched hk'⟩

end Sys2Proof.Machine

namespace Sys2Proof.Proofs
open Sys2Proof.Machine

/-- Settles O53 (R93, R113, R116): the run emits one sample per rollover, and division by NDIV counts the rollovers. -/
theorem sinkTraceOfATickRun : Obligations.SinkTraceOfATickRun := by
  rintro s ⟨-, -, -, -, hidx, -⟩ hcnt hw
  obtain ⟨t, hrun, -, hruns⟩ := exists_run_inputs s
  obtain ⟨k, hadv, hemits⟩ := hruns.emits ⟨hcnt, hidx⟩ hw
  obtain ⟨hdiv, -⟩ := hadv.div_mod
  exact ⟨t, hrun, hemits.wave, hadv.ndiv, hemits.amp, hdiv ▸ hemits.sink⟩

end Sys2Proof.Proofs
end

/-! Scale and Clip (R110 to R112). -/
section
namespace Sys2Proof.Machine

/-- R110: the quotient of integers is the product in hundredths, rounded with ties up. -/
theorem scale_eq_floor (s a : Nat) : (scale s a : ℤ) = ⌊(s : ℚ) * (a : ℚ) / 100 + 1 / 2⌋ := by
  have hround : (s : ℚ) * (a : ℚ) / 100 + 1 / 2 = ((s * a + 50 : ℕ) : ℚ) / ((100 : ℕ) : ℚ) := by
    push_cast
    ring
  rw [hround, Rat.floor_natCast_div_natCast, scale, Int.natCast_div]

theorem mul_le_twoHundred_mul_h (c : Config) {s a : Nat} (hs : s ≤ 2 * c.h) (ha : a ≤ 100) : s * a ≤ 200 * c.h :=
  calc s * a ≤ 2 * c.h * 100 := Nat.mul_le_mul hs ha
    _ = 200 * c.h := by ring

theorem scale_hundred (s : Nat) : scale s 100 = s := by
  unfold scale
  omega

theorem scale_zero (a : Nat) : scale 0 a = 0 := by
  unfold scale
  omega

/-- R111: Scale is non-decreasing in both arguments at once, hence in each. -/
theorem scale_le_scale {s s' a a' : Nat} (hs : s ≤ s') (ha : a ≤ a') : scale s a ≤ scale s' a' :=
  Nat.div_le_div_right (Nat.add_le_add_right (Nat.mul_le_mul hs ha) 50)

theorem scale_one_eq_zero_iff (s : Nat) : scale s 1 = 0 ↔ s < 50 := by
  unfold scale
  omega

theorem clip_eq_self {c : Config} {v : Nat} (h : v ≤ c.p) : clip c v = v := min_eq_left h

/-- A scaled table entry does not exceed full scale (R75, R111). -/
theorem scale_lutRead_le (c : Config) (w : WaveCode) {i a : Nat} (hi : i < c.r) (ha : a ≤ 100) :
    scale (lutRead c w i) a ≤ 2 * c.h :=
  (scale_le_self ha _).trans (lutRead_le c w hi)

end Sys2Proof.Machine

namespace Sys2Proof.Proofs
open Sys2Proof.Machine

/-- Settles O29 (R110): the floor by `scale_eq_floor`, the bound on the product by `mul_le_twoHundred_mul_h`. -/
theorem scaleIsTheRoundedProduct : Obligations.ScaleIsTheRoundedProduct :=
  ⟨fun s a => ⟨scale_eq_floor s a, rfl⟩, fun c _ _ hs ha => Nat.add_le_add_right (mul_le_twoHundred_mul_h c hs ha) 50⟩

/-- Settles O30 (R111): both bounds come from `scale_le_self`, both monotonicities from `scale_le_scale`. -/
theorem scaleProperties : Obligations.ScaleProperties := by
  refine ⟨scale_hundred, scale_zero, fun s a ha => scale_le_self ha s, fun c s a hs ha => (scale_le_self ha s).trans hs,
    fun s s' a hs => scale_le_scale hs le_rfl, fun s a a' ha => scale_le_scale le_rfl ha, scale_one_eq_zero_iff, ?ties,
    ?tiesAtQuarter⟩
  case ties => decide
  case tiesAtQuarter =>
    intro h hodd
    omega

/-- Settles O31 (R112): with the period at full scale no scaled entry reaches beyond it (`scale_lutRead_le`). -/
theorem clipIsTheIdentityForTheSpecPeriod : Obligations.ClipIsTheIdentityForTheSpecPeriod :=
  ⟨fun _ _ => ⟨rfl, Nat.min_le_right _ _⟩, fun c w _ _ hp hi ha => clip_eq_self (hp ▸ scale_lutRead_le c w hi ha)⟩

end Sys2Proof.Proofs
end

/-! DUTY after an operation (R113). -/
section
namespace Sys2Proof.Machine

/-- R113: the stepper part writes DUTY at RESET and at a rollover only. -/
theorem stepperPart_duty (i : Instr) (s : State) :
    (stepperPart i s).duty =
      if i = .reset then 0
      else if ticks i = true ∧ s.ndiv.toNat ≤ s.tcnt.toNat + 1 then nextDuty s
      else s.duty := by
  by_cases hr : i = .reset
  · subst hr
    rfl
  · rw [if_neg hr]
    rcases stepperPart_cases hr s with ⟨ht, e⟩ | ⟨-, hc, e⟩ | ⟨ht, hc, e⟩ <;> rw [e]
    · simp [ht]
    · simp [hc]
    · simp [ht, hc]

end Sys2Proof.Machine

namespace Sys2Proof.Proofs
open Sys2Proof.Machine

/-- Settles O32 (R113): the stepper part's DUTY by `stepperPart_duty`; the port part leaves DUTY alone. -/
theorem dutyChangesOnlyAtARolloverOrReset : Obligations.DutyChangesOnlyAtARolloverOrReset := by
  intro i s
  refine ⟨portPart i (stepperPart i s), exec_eq_portPart_stepperPart i s, ?_⟩
  rw [portPart_duty]
  exact stepperPart_duty i s

end Sys2Proof.Proofs
end

/-! A run does not read the sink trace, and RESET leaves nothing else of the state it finds (R116, R177). -/
section
namespace Sys2Proof.Machine

/-- R113: without a RESET and without a sink write, DUTY is as before. -/
theorem duty_eq_of_exec_next {i : Instr} {s t : State} (h : exec i s = .next t) (hr : i ≠ .reset)
    (hstb : t.dutyStb ≠ true) : t.duty = s.duty := by
  obtain rfl := eq_of_exec_next h
  rw [portPart_dutyStb] at hstb
  rw [portPart_duty, stepperPart_duty, if_neg hr, if_neg (mt (stepperPart_sinkWrite i s).1.mpr hstb)]

/-- `s` with another sink trace. -/
def withSink (l : List Nat) (s : State) : State := { s with sink := l }

/-- An operation appends the same to whatever trace it finds, and changes nothing else by it: the case of R18 where DUTY
and the strobe stay as they are. -/
theorem exec_withSink {i : Instr} {s t : State} (h : exec i s = .next t) (l : List Nat) :
    ∃ new, t.sink = s.sink ++ new ∧ exec i (withSink l s) = .next (withSink (l ++ new) t) := by
  obtain ⟨u, new, he, hsink, hrecord⟩ := Proofs.dutyIsNeverRead i s s.duty s.dutyStb l
  obtain rfl : u = t := Host.Outcome.next.inj (he.symm.trans h)
  have hduty : (if i = .reset ∨ u.dutyStb = true then u.duty else s.duty) = u.duty := by
    refine ite_eq_left_iff.mpr fun hno => ?_
    obtain ⟨hr, hstb⟩ := not_or.mp hno
    exact (duty_eq_of_exec_next h hr hstb).symm
  rw [hduty] at hrecord
  exact ⟨new, hsink, hrecord⟩

theorem step_withSink {s t : State} (h : step s = .next t) (l : List Nat) :
    ∃ new, t.sink = s.sink ++ new ∧ step (withSink l s) = .next (withSink (l ++ new) t) := by
  obtain ⟨iw, rest, hi, he⟩ := step_next_cases h
  obtain ⟨new, hsink, hexec⟩ := exec_withSink he l
  exact ⟨new, hsink, (step_of_inputs_cons (s := withSink l s) hi).trans hexec⟩

/-- A run of `k + 1` steps that completes is a step and a run of `k` steps. -/
theorem run_succ_next_cases {s t : State} {k : Nat} (h : core.run (k + 1) s = .next t) :
    ∃ u, step s = .next u ∧ core.run k u = .next t := by
  cases hi : s.inputs with
  | nil =>
    rw [run_stops hi] at h
    cases h
  | cons iw rest =>
    obtain ⟨u, he⟩ := exec_completes (decode iw) { s with inputs := rest }
    have hstep : step s = .next u := (step_of_inputs_cons hi).trans he
    exact ⟨u, hstep, (run_succ hstep).symm.trans h⟩

theorem run_withSink {s t : State} {k : Nat} (h : core.run k s = .next t) (l : List Nat) :
    ∃ new, t.sink = s.sink ++ new ∧ core.run k (withSink l s) = .next (withSink (l ++ new) t) := by
  induction k generalizing s l with
  | zero =>
    cases h
    exact ⟨[], (List.append_nil _).symm, by rw [List.append_nil]; rfl⟩
  | succ k ih =>
    obtain ⟨u, hstep, hrun⟩ := run_succ_next_cases h
    obtain ⟨first, hfirst, hstep'⟩ := step_withSink hstep l
    obtain ⟨later, hlater, hrun'⟩ := ih hrun (l ++ first)
    refine ⟨first ++ later, by rw [hlater, hfirst, List.append_assoc], ?_⟩
    rw [run_succ hstep', hrun', List.append_assoc]

theorem decode_of_rst {iw : StepWord} (h : iw.getLsbD 21 = true) : decode iw = .reset := operation_of_rst h

theorem step_of_rst {s : State} {iw : StepWord} {rest : List StepWord} (hi : s.inputs = iw :: rest)
    (hrst : iw.getLsbD 21 = true) : step s = .next (resetRegisters { s with inputs := rest }) := by
  rw [step_of_inputs_cons hi, decode_of_rst hrst]
  rfl

/-- Of the state it finds, RESET keeps the instance, the trace and the words to come, and nothing else (R175). -/
theorem resetRegisters_eq_withSink {s s' : State} (hcfg : s.cfg = s'.cfg) (hi : s.inputs = s'.inputs) :
    resetRegisters s' = withSink s'.sink (resetRegisters s) := by
  simp only [withSink, resetRegisters, lowerStrobe, hcfg, hi]

end Sys2Proof.Machine

namespace Sys2Proof.Proofs
open Sys2Proof.Machine

/-- Settles O54 (R116, R177): after the RESET the two states differ in the trace only (`resetRegisters_eq_withSink`), and
the rest of the run does not read it (`run_withSink`). -/
theorem sinkTraceIsDeterminedByTheWords : Obligations.SinkTraceIsDeterminedByTheWords := by
  intro s s' iw rest k t hcfg hi hi' hrst hrun
  rw [run_succ (step_of_rst hi hrst)] at hrun
  obtain ⟨new, hsink, hrun'⟩ := run_withSink hrun s'.sink
  refine ⟨withSink (s'.sink ++ new) t, new, ?_, hsink, rfl⟩
  have hreset := resetRegisters_eq_withSink (s := { s with inputs := rest }) (s' := { s' with inputs := rest }) hcfg rfl
  rw [run_succ (step_of_rst hi' hrst), hreset, hrun']

end Sys2Proof.Proofs
end

/-! The clamps of the port by ranges (R127, R128). -/
section
namespace Sys2Proof.Machine

theorem clampN_eq_self {n : NdivWord} (h : 1 ≤ n.toNat) (h' : n.toNat ≤ 200) : clampN n = n := by
  apply BitVec.eq_of_toNat_eq
  rw [clampN_toNat, max_eq_left h, min_eq_left h']

theorem clampA_eq_self {a : AmpWord} (h : 1 ≤ a.toNat) (h' : a.toNat ≤ 100) : clampA a = a := by
  apply BitVec.eq_of_toNat_eq
  rw [clampA_toNat, max_eq_left h, min_eq_left h']

end Sys2Proof.Machine

namespace Sys2Proof.Proofs
open Sys2Proof.Machine

/-- Settles O27 (R127): each range is a case of `clampN_toNat`. -/
theorem clampNClampsToOneAndTwoHundred : Obligations.ClampNClampsToOneAndTwoHundred := by
  refine fun n => ⟨clampN_toNat n, fun hzero => ?_, clampN_eq_self, fun hlarge => ?_⟩
  · rw [clampN_toNat, hzero]
    rfl
  · rw [clampN_toNat]
    omega

/-- Settles O28 (R128): each range is a case of `clampA_toNat`. -/
theorem clampAClampsToOneAndOneHundred : Obligations.ClampAClampsToOneAndOneHundred := by
  refine fun a => ⟨clampA_toNat a, fun hzero => ?_, clampA_eq_self, fun hlarge => ?_⟩
  · rw [clampA_toNat, hzero]
    rfl
  · rw [clampA_toNat]
    omega

end Sys2Proof.Proofs
end

/-! Who writes which register (R125): the stepper part leaves the parameters, the port part everything else. -/
section
namespace Sys2Proof.Machine

/-- An operation without a write has no port part. -/
theorem portPart_of_not_writes {i : Instr} (h : writes i = false) (s : State) : portPart i s = s := by
  cases i with
  | reset | nop | tick => rfl
  | _ => cases h

/-- Only RESET writes a parameter outside the port. -/
theorem stepperPart_keeps_parameters {i : Instr} (hr : i ≠ .reset) (s : State) :
    (stepperPart i s).wave = s.wave ∧ (stepperPart i s).ndiv = s.ndiv ∧ (stepperPart i s).amp = s.amp := by
  rcases stepperPart_cases hr s with ⟨-, e⟩ | ⟨-, -, e⟩ | ⟨-, -, e⟩ <;> rw [e]
  · exact ⟨lowerStrobe_wave s, lowerStrobe_ndiv s, lowerStrobe_amp s⟩
  · exact ⟨hold_wave s, hold_ndiv s, hold_amp s⟩
  · exact ⟨rollover_wave s, rollover_ndiv s, rollover_amp s⟩

theorem ne_reset_of_writes {i : Instr} (h : writes i = true) : i ≠ .reset := by
  rintro rfl
  cases h

/-- The stepper part as an operation: TICK where there is one, NOP otherwise. -/
theorem exec_tick_or_nop {i : Instr} (hr : i ≠ .reset) (s : State) :
    (if ticks i then exec .tick s else exec .nop s) = .next (stepperPart i s) := by
  cases ht : ticks i with
  | false => rw [stepperPart_of_not_ticks hr ht]; rfl
  | true => rw [stepperPart_of_ticks ht]; rfl

end Sys2Proof.Machine

namespace Sys2Proof.Proofs
open Sys2Proof.Machine

/-- Settles O47 (R125): without a write the operation is its stepper part; with one, the port part leaves the registers of
the stepper and the sink as the stepper part, a TICK or a NOP, left them. -/
theorem portAndStepperOwnTheirRegisters : Obligations.PortAndStepperOwnTheirRegisters := by
  refine ⟨fun i s t hw hr he => ?noWrite, fun i s hw => ?write⟩
  case noWrite =>
    rw [eq_of_exec_next he, portPart_of_not_writes hw]
    exact stepperPart_keeps_parameters hr s
  case write =>
    have hr : i ≠ .reset := ne_reset_of_writes hw
    refine ⟨portPart i (stepperPart i s), stepperPart i s, exec_eq_portPart_stepperPart i s, exec_tick_or_nop hr s,
      portPart_tidx i _, portPart_tcnt i _, portPart_duty i _, portPart_sink i _, portPart_dutyStb i _, fun ht => ?_⟩
    rw [stepperPart_of_not_ticks hr ht, portPart_tidx, portPart_tcnt, portPart_duty, portPart_sink]
    exact ⟨rfl, rfl, rfl, rfl⟩

end Sys2Proof.Proofs
end

/-! NOP and the eight writes as operations: their words and their effects (R54 to R56, R129 to R137). -/
section
namespace Sys2Proof

/-- The words with `{rst, tick, we} = 000` spell NOP (R55). -/
theorem decode_of_nopField {iw : StepWord} (h : iw.extractLsb' 19 3 = 0b000) : decode iw = .nop := by
  have hrst : (portsOf iw).rst = false := getLsbD_of_field h (i := 2) (by decide)
  have htick : (portsOf iw).tick = false := getLsbD_of_field h (i := 1) (by decide)
  have hwe : (portsOf iw).we = false := getLsbD_of_field h (i := 0) (by decide)
  simp [decode, operation, hrst, htick, hwe]

/-- The five bits `{rst, tick, we, sel}` choose the operation, the other fields are its operands (R54, R55). At a literal
value of the five bits the right side evaluates to the operation. -/
theorem decode_of_controlField {iw : StepWord} {v : BitVec 5} (h : iw.extractLsb' 17 5 = v) :
    decode iw =
      operation
        { rst := v.getLsbD 4, tick := v.getLsbD 3, we := v.getLsbD 2, sel := v.extractLsb' 0 2,
          wave := iw.extractLsb' 15 2, ndiv := iw.extractLsb' 7 8, amp := iw.extractLsb' 0 7 } := by
  have hrst : iw.getLsbD 21 = v.getLsbD 4 := getLsbD_of_field h (i := 4) (by decide)
  have htick : iw.getLsbD 20 = v.getLsbD 3 := getLsbD_of_field h (i := 3) (by decide)
  have hwe : iw.getLsbD 19 = v.getLsbD 2 := getLsbD_of_field h (i := 2) (by decide)
  have hsel : iw.extractLsb' 17 2 = v.extractLsb' 0 2 := extractLsb'_eq_of_getLsbD fun i hi => by
    rw [getLsbD_of_field h (by omega), BitVec.getLsbD_extractLsb', decide_eq_true hi, Bool.true_and, Nat.zero_add]
  rw [decode, portsOf, hrst, htick, hwe, hsel]

/-- The word of a write: the word with all data 0, and each datum at its field's bits (R52). -/
theorem wordOf_writePorts (tick : Bool) (t : Target) (w : WaveCode) (n : NdivWord) (a : AmpWord) :
    wordOf (writePorts tick t w n a) =
      wordOf (writePorts tick t 0 0 0) ||| (w.setWidth 22 <<< 15) ||| (n.setWidth 22 <<< 7) ||| a.setWidth 22 := by
  apply BitVec.eq_of_getLsbD_eq
  intro i hi
  simp only [wordOf_getLsbD, writePorts, BitVec.getLsbD_or, BitVec.getLsbD_shiftLeft, BitVec.getLsbD_setWidth]
  interval_cases i <;> simp

theorem wordOf_writePorts_wave (tick : Bool) (t : Target) (w : WaveCode) :
    wordOf (writePorts tick t w 0 0) = wordOf (writePorts tick t 0 0 0) ||| (w.setWidth 22 <<< 15) := by
  rw [wordOf_writePorts]
  simp

theorem wordOf_writePorts_ndiv (tick : Bool) (t : Target) (n : NdivWord) :
    wordOf (writePorts tick t 0 n 0) = wordOf (writePorts tick t 0 0 0) ||| (n.setWidth 22 <<< 7) := by
  rw [wordOf_writePorts]
  simp

theorem wordOf_writePorts_amp (tick : Bool) (t : Target) (a : AmpWord) :
    wordOf (writePorts tick t 0 0 a) = wordOf (writePorts tick t 0 0 0) ||| a.setWidth 22 := by
  rw [wordOf_writePorts]
  simp

end Sys2Proof

namespace Sys2Proof.Proofs
open Sys2Proof.Machine

/-- Settles O12 (R129): NOP lowers the strobe and does nothing else. -/
theorem nopKeepsEveryRegister : Obligations.NopKeepsEveryRegister :=
  ⟨fun _ => rfl, fun _ h => decode_of_nopField h, by decide⟩

/-- Settles O16 (R130): the effect by definition, the words by `decode_of_controlField` and `wordOf_writePorts_wave`. -/
theorem wrWaveWritesTheSelector : Obligations.WrWaveWritesTheSelector :=
  ⟨fun _ _ => rfl, fun _ h => decode_of_controlField h, wordOf_writePorts_wave false .wave⟩

/-- Settles O17 (R131): NDIV gets `clampN n`, which is the value stated; TCNT is not touched. -/
theorem wrNdivWritesTheClampedValue : Obligations.WrNdivWritesTheClampedValue :=
  ⟨fun _ _ => rfl, fun _ h => decode_of_controlField h, wordOf_writePorts_ndiv false .ndiv⟩

/-- Settles O18 (R132): AMP gets `clampA a`, which is the value stated; DUTY is not touched. -/
theorem wrAmpWritesTheClampedValue : Obligations.WrAmpWritesTheClampedValue :=
  ⟨fun _ _ => rfl, fun _ h => decode_of_controlField h, wordOf_writePorts_amp false .amp⟩

/-- Settles O19 (R133): the three writes go to three registers of one state. -/
theorem wrAllWritesTheThreeRegisters : Obligations.WrAllWritesTheThreeRegisters :=
  ⟨fun _ _ _ _ => rfl, fun _ h => decode_of_controlField h, wordOf_writePorts false .all⟩

/-- Settles O20 (R134): the write follows `tick s`, which `exec_tick` says TICK gives. -/
theorem tWrWaveTicksThenWrites : Obligations.TWrWaveTicksThenWrites :=
  ⟨fun _ s => ⟨tick s, exec_tick s, rfl⟩, fun _ h => decode_of_controlField h, wordOf_writePorts_wave true .wave⟩

/-- Settles O21 (R135): the TICK compares with the NDIV of `s`, the write follows it. -/
theorem tWrNdivTicksThenWrites : Obligations.TWrNdivTicksThenWrites :=
  ⟨fun _ s => ⟨tick s, exec_tick s, rfl⟩, fun _ h => decode_of_controlField h, wordOf_writePorts_ndiv true .ndiv⟩

/-- Settles O22 (R136): the TICK scales with the AMP of `s`, the write follows it. -/
theorem tWrAmpTicksThenWrites : Obligations.TWrAmpTicksThenWrites :=
  ⟨fun _ s => ⟨tick s, exec_tick s, rfl⟩, fun _ h => decode_of_controlField h, wordOf_writePorts_amp true .amp⟩

/-- Settles O23 (R137): the TICK reads the three parameters of `s`, the three writes follow it. -/
theorem tWrAllTicksThenWrites : Obligations.TWrAllTicksThenWrites :=
  ⟨fun _ _ _ s => ⟨tick s, exec_tick s, rfl⟩, fun _ h => decode_of_controlField h, wordOf_writePorts true .all⟩

end Sys2Proof.Proofs
end

/-! No step raises an exception (R153, R157): a step without a word is refused, every other one is an operation, and that
completes. -/
section
namespace Sys2Proof.Machine

theorem step_completes {s : State} {iw : StepWord} {rest : List StepWord} (h : s.inputs = iw :: rest) :
    ∃ t, step s = .next t := by
  rw [step_of_inputs_cons h]
  exact exec_completes _ _

theorem step_of_inputs_nil {s : State} (h : s.inputs = []) : step s = .refused .awaitingInput := by
  simp only [step, fetch_nil h]

theorem step_ne_fault (s : State) (f : Fault) : step s ≠ .fault f := by
  cases hi : s.inputs with
  | nil => simp [step_of_inputs_nil hi]
  | cons iw rest =>
    obtain ⟨t, hstep⟩ := step_completes hi
    simp [hstep]

/-- With nothing on its trace, a legal state has kept the sink's contract. -/
theorem safe_withSink_nil {s : State} (h : s.Legal) : (withSink [] s).Safe := ⟨h, List.forall_mem_nil _⟩

end Sys2Proof.Machine

namespace Sys2Proof.Proofs
open Sys2Proof.Machine

/-- R19 without the sink's contract: the same step from the empty trace is one from a safe state, and a step differs there
in the trace only (`step_withSink`). -/
theorem step_keeps_legal {s t : State} (h : s.Legal) (hstep : step s = .next t) : t.Legal := by
  obtain ⟨new, -, hstep'⟩ := step_withSink hstep []
  obtain ⟨hlegal, -⟩ := everyStepKeepsTheStateSafe _ _ (safe_withSink_nil h) hstep'
  exact hlegal

/-- Settles O45 (R153): with a word presented the step completes, and it keeps legality. -/
theorem noStepRaisesAnException : Obligations.NoStepRaisesAnException := by
  refine ⟨fun s iw rest hlegal hi => ?_, step_ne_fault⟩
  obtain ⟨t, hstep⟩ := step_completes hi
  exact ⟨t, hstep, step_keeps_legal hlegal hstep⟩

end Sys2Proof.Proofs
end

/-! RESET as an operation and as a step: its values, and that bit 21 alone decides it (R20, R175, R176). -/
section
namespace Sys2Proof.Machine

/-- R20 and R175 with the frame: the instance, the sink trace and the words to come stay. -/
theorem resetRegisters_eq (s : State) :
    resetRegisters s =
      { s with wave := 0, ndiv := 1, amp := 100, tidx := 0, tcnt := 0, duty := 0, dutyStb := false } := rfl

theorem exec_reset (s : State) : exec .reset s = .next (resetRegisters s) := rfl

end Sys2Proof.Machine

namespace Sys2Proof.Proofs
open Sys2Proof.Machine

/-- Settles O11 (R175, R20): the effect is `resetRegisters_eq`, the words are `decode_of_rst`, and the canonical word is a
fixed word. -/
theorem resetWritesTheResetValues : Obligations.ResetWritesTheResetValues := by
  refine ⟨fun s => ?effect, fun iw hrst => decode_of_rst hrst, by decide⟩
  case effect => rw [exec_reset, resetRegisters_eq]

/-- Settles O10 (R176): whatever its other bits, the word steps to the reset values (`step_of_rst`); no port field is
read. -/
theorem resetDominatesItsWord : Obligations.ResetDominatesItsWord := by
  intro s iw rest hrst
  rw [step_of_rst (rest := rest) rfl hrst, resetRegisters_eq]

end Sys2Proof.Proofs
end

/-! The example words of the spec (R55, R56, V-DEC), and a step without a word (R6). -/
section
namespace Sys2Proof.Proofs
open Sys2Proof.Machine

/-- Settles O1 (R55, R56): RESET is read off bit 21, NOP and TICK off `{rst, tick, we}`, and a write off the five bits
`{rst, tick, we, sel}`, given here as `v`; its operands are then the data fields of the word. -/
theorem specExampleWordsDecode : Obligations.SpecExampleWordsDecode := by
  refine ⟨decode_of_rst ?rst, decode_of_nopField ?nop, decode_of_tickField ?tick,
    decode_of_controlField (v := 0b00100) ?wrWave, decode_of_controlField (v := 0b00101) ?wrNdiv,
    decode_of_controlField (v := 0b00110) ?wrAmp, decode_of_controlField (v := 0b00111) ?wrAll,
    decode_of_controlField (v := 0b01100) ?tWrWave, decode_of_controlField (v := 0b01101) ?tWrNdiv,
    decode_of_controlField (v := 0b01110) ?tWrAmp, decode_of_controlField (v := 0b01111) ?tWrAll⟩ <;> decide

/-- Settles O9 (R6): `step_of_inputs_nil` at the state with an empty list of words. -/
theorem withoutAWordThereIsNoStep : Obligations.WithoutAWordThereIsNoStep := by
  intro s
  exact step_of_inputs_nil (s := { s with inputs := [] }) rfl

end Sys2Proof.Proofs
end
